-- ==== Sys2Proof/Word.lean ====
section
/-! DEFINITION. The Word, the numeric carrier and the small tuples the commands pass around (spec R6, R7, R130, R150). -/

namespace Sys2Proof

/-- "Word: a 64-bit unsigned integer used as the packing substrate for BitField" (R6, glossary). -/
abbrev Word := BitVec 64

/-- The carrier set of the numeric parameter `NUM` (R7).
Under the reference instantiation `NUM_Q` an element is the rational it names.
Under any other instantiation an element is a label for a value of that format: the operations of the
instantiation alone give it a meaning (DESIGN CHOICE, notes/assumptions/2.md). -/
abbrev F := Rat

/-- A decimal literal of the document, digit for digit: `digits` · 10^(−`places`) (spec 00_scope section 5, `flit`).
`flit("0.299")` is `⟨299, 3⟩`, `flit("-0.168736")` is `⟨-168736, 6⟩`. -/
structure DecLit where
  digits : Int
  places : Nat
  deriving DecidableEq, Repr

/-- Three independent lanes on ports 0, 1, 2, in the order the document writes them: (r, g, b) or (y, pb, pr) (R130). -/
structure Triple where
  x0 : F
  x1 : F
  x2 : F
  deriving DecidableEq, Repr

/-- Four lanes on ports 0 to 3: the luma samples y0..y3 or the coefficients a, b, c, d (R150). -/
structure Quad where
  x0 : F
  x1 : F
  x2 : F
  x3 : F
  deriving DecidableEq, Repr

end Sys2Proof
end

