-- ==== Sys2Proof/Config.lean ====
section
/-! DEFINITION. What is fixed when the block is built: the port widths `DW` and `CW`, and the parameters `NUM`,
`ROUND_TIES` and `CHROMA` (spec R7, R8, R9, R28). -/

namespace Sys2Proof

/-- The two port widths that are parameters, with R9's defaults: `DW`, the width in bits of the `width` and `lsb` ports, and
`CW`, the width in bits of a pixel component port and of the denominator port. -/
structure Widths where
  dw : Nat := 8
  cw : Nat := 16
  deriving DecidableEq, Repr

/-- `DW >= 7` and `CW >= 8` (R9, R232): 64 and more can be presented, and 255 fits the output ports of `BLKDEC`. -/
def Widths.legal (pw : Widths) : Bool := decide (7 ≤ pw.dw) && decide (8 ≤ pw.cw)

/-- The numeric interface `NUM`: the record of functions of 00_scope section 5, all total (R7).
`fround` and `ftrunc` answer `none` for a value with no integer image. -/
structure NumOps where
  fint : Int → F
  flit : DecLit → F
  add : F → F → F
  sub : F → F → F
  mul : F → F → F
  div : F → F → F
  lt : F → F → Bool
  le : F → F → Bool
  ge : F → F → Bool
  gt : F → F → Bool
  fround : F → Option Int
  ftrunc : F → Option Int
  deriving Inhabited

/-- The external chroma table `CHROMA`: "two total, pure functions" (R8). Four bits carry the index 0..15. -/
structure Chroma where
  indexOf : F → BitVec 4
  chromaOf : BitVec 4 → F
  deriving Inhabited

/-- `ROUND_TIES`, how `fround` breaks a tie under `NUM_Q` (R9). -/
inductive RoundTies
  /-- The default of R9, D3: a tie goes to the integer farther from zero. -/
  | halfAwayFromZero
  /-- Any other rule: what it does at each tie is the free value `Config.openTie`. -/
  | other
  deriving DecidableEq, Repr

/-- Which instantiation of `NUM` the block was built with (R7). -/
inductive NumSel
  /-- `NUM_Q`: exact rational arithmetic, with the tie rule `ROUND_TIES`. -/
  | exactRational (ties : RoundTies)
  /-- Any other instantiation (IEEE 754 binary32, binary64, a fixed-point format, ...): the free value `Config.openNum`. -/
  | implementation
  deriving DecidableEq, Repr

/-- Which chroma table the block was built with (R8). -/
inductive ChromaSel
  /-- The table the document leaves outside: nothing is known of it; the free value `Config.openChroma`. -/
  | external
  /-- The test fixture `T0` of 95_test_vectors section 1. It is not part of the hardware. It is one possible value of
  the parameter, there so that the spec's vectors marked `(T0)` can be checked. -/
  | fixtureT0
  deriving DecidableEq, Repr

/-- The parameters that are "fixed before the first command and never change" (R28). -/
structure Config where
  num : NumSel
  chroma : ChromaSel
  widths : Widths := {}
  deriving DecidableEq, Repr

/-- FREE VALUE: the operations of an instantiation of `NUM` that the spec leaves open (R7, N3).
DESIGN CHOICE, safe; notes/assumptions/2.md. -/
opaque Config.openNum : NumOps

/-- FREE VALUE: for a tie at `k + 1/2`, whether an unnamed `ROUND_TIES` goes up to `k + 1` (R9, N4).
DESIGN CHOICE, safe; notes/assumptions/3.md. -/
opaque Config.openTie : Int → Bool

/-- FREE VALUE: the external chroma table, of which "the model must not assume any property" (R8, N10).
DESIGN CHOICE, safe; notes/assumptions/5.md. -/
opaque Config.openChroma : Chroma

end Sys2Proof
end

