-- ==== Sys2Proof/Syntax.lean ====
section
/-! DEFINITION. The command ports as the host drives them (spec R26), and the commands as the block reads them
(spec R70 to R74): one constructor of `Instr` per row of the opcode table. -/

namespace Sys2Proof

/-- A pixel: three components, unsigned integers (R26, R74). -/
structure Pixel where
  r : Nat
  g : Nat
  b : Nat
  deriving DecidableEq, Repr

/-- One command as it stands on the ports: "the tuple of values on these ports at the moment the host issues it" (R26).
Every port always carries some value; a command reads only its own. A port whose width is a parameter (`width`, `lsb`: `DW`
bits; the components and `den`: `CW` bits) is held as the unsigned integer the host presents; the port carries its low
bits (`decode`; notes/assumptions/4.md). -/
structure Ports where
  op : BitVec 5
  word : Word := 0
  value : Word := 0
  width : Nat := 0
  lsb : Nat := 0
  n0 : F := 0
  n1 : F := 0
  n2 : F := 0
  n3 : F := 0
  px0 : Pixel := ⟨0, 0, 0⟩
  px1 : Pixel := ⟨0, 0, 0⟩
  px2 : Pixel := ⟨0, 0, 0⟩
  px3 : Pixel := ⟨0, 0, 0⟩
  den : Nat := 0
  q : BitVec 6 := 0
  idx : BitVec 4 := 0
  packed : BitVec 32 := 0
  deriving DecidableEq, Repr

/-- The 21 commands of R72 with their operands decoded by R74: `width`, `lsb`, components and `den` are integers,
`q` is an unsigned integer for `DQAVG` and a two's complement one for `DQDET`; `word`, `value`, `idx`, `packed` stay bit
patterns. The operand order is R78's. -/
inductive Instr
  | fitsu (value : Word) (width : Nat)
  | fitss (value : Word) (width : Nat)
  | getu (word : Word) (width lsb : Nat)
  | gets (word : Word) (width lsb : Nat)
  | setu (word : Word) (width lsb : Nat) (value : Word)
  | sets (word : Word) (width lsb : Nat) (value : Word)
  | norm (px0 : Pixel) (den : Nat)
  | rgb2ypp (n0 n1 n2 : F)
  | ypp2rgb (n0 n1 n2 : F)
  | clamp01 (n0 n1 n2 : F)
  | denorm (n0 n1 n2 : F) (den : Nat)
  | btfwd (n0 n1 n2 n3 : F)
  | btinv (n0 n1 n2 n3 : F)
  | qavg (n0 : F)
  | dqavg (q : Nat)
  | qdet (n0 : F)
  | dqdet (q : Int)
  | cidx (n0 : F)
  | cval (idx : BitVec 4)
  | blkenc (px0 px1 px2 px3 : Pixel) (den : Nat)
  | blkdec (packed : BitVec 32)
  deriving DecidableEq, Repr

end Sys2Proof
end

