-- ==== Sys2Proof/WellFormed.lean ====
section
/-! DEFINITION. Which command terms can stand on the ports: every integer operand fits the port that carries it (spec R26, R74). -/

namespace Sys2Proof

/-- The three components fit their `CW`-bit ports. -/
def Pixel.fits (pw : Widths) (p : Pixel) : Bool :=
  decide (p.r < 2 ^ pw.cw) && decide (p.g < 2 ^ pw.cw) && decide (p.b < 2 ^ pw.cw)

/-- Every operand of the command fits its port: `width`, `lsb` in 0..2^DW−1; components and `den` in 0..2^CW−1;
`q` in 0..63 for `DQAVG` and in −32..31 for `DQDET` (R26, R74). -/
def Instr.wellFormed (pw : Widths) : Instr → Bool
  | .fitsu _ width => decide (width < 2 ^ pw.dw)
  | .fitss _ width => decide (width < 2 ^ pw.dw)
  | .getu _ width lsb => decide (width < 2 ^ pw.dw) && decide (lsb < 2 ^ pw.dw)
  | .gets _ width lsb => decide (width < 2 ^ pw.dw) && decide (lsb < 2 ^ pw.dw)
  | .setu _ width lsb _ => decide (width < 2 ^ pw.dw) && decide (lsb < 2 ^ pw.dw)
  | .sets _ width lsb _ => decide (width < 2 ^ pw.dw) && decide (lsb < 2 ^ pw.dw)
  | .norm px0 den => px0.fits pw && decide (den < 2 ^ pw.cw)
  | .rgb2ypp _ _ _ => true
  | .ypp2rgb _ _ _ => true
  | .clamp01 _ _ _ => true
  | .denorm _ _ _ den => decide (den < 2 ^ pw.cw)
  | .btfwd _ _ _ _ => true
  | .btinv _ _ _ _ => true
  | .qavg _ => true
  | .dqavg q => decide (q < 2 ^ 6)
  | .qdet _ => true
  | .dqdet q => decide (-32 ≤ q) && decide (q ≤ 31)
  | .cidx _ => true
  | .cval _ => true
  | .blkenc px0 px1 px2 px3 den => px0.fits pw && px1.fits pw && px2.fits pw && px3.fits pw && decide (den < 2 ^ pw.cw)
  | .blkdec _ => true

end Sys2Proof
end

