-- ==== Sys2Proof/Decode.lean ====
section
/-! DEFINITION. From the port bundle to a command and back (spec R70 to R75), and the same read from the opcode table's
numbering. -/

namespace Sys2Proof

/-- Why a port bundle is no command. -/
inductive DecodeError
  /-- `cmd.op` is one of the eleven reserved codes (R73). -/
  | reservedOp (op : BitVec 5)
  deriving DecidableEq, Repr

/-- What a `DW`-bit port carries of an integer. -/
def Widths.desc (pw : Widths) (n : Nat) : Nat := n % 2 ^ pw.dw

/-- What a `CW`-bit port carries of an integer. -/
def Widths.comp (pw : Widths) (n : Nat) : Nat := n % 2 ^ pw.cw

/-- What a pixel port carries, three unsigned integers (R74). -/
def Pixel.carried (pw : Widths) (p : Pixel) : Pixel := ⟨pw.comp p.r, pw.comp p.g, pw.comp p.b⟩

/-- `cmd.op` alone selects the command; only the ports it reads are copied, each decoded by R74 (R70, R71, R72, R75). -/
def decode (pw : Widths) (p : Ports) : Except DecodeError Instr :=
  match p.op.toNat with
  | 0x01 => .ok (.fitsu p.value (pw.desc p.width))
  | 0x02 => .ok (.fitss p.value (pw.desc p.width))
  | 0x03 => .ok (.getu p.word (pw.desc p.width) (pw.desc p.lsb))
  | 0x04 => .ok (.gets p.word (pw.desc p.width) (pw.desc p.lsb))
  | 0x05 => .ok (.setu p.word (pw.desc p.width) (pw.desc p.lsb) p.value)
  | 0x06 => .ok (.sets p.word (pw.desc p.width) (pw.desc p.lsb) p.value)
  | 0x08 => .ok (.norm (p.px0.carried pw) (pw.comp p.den))
  | 0x09 => .ok (.rgb2ypp p.n0 p.n1 p.n2)
  | 0x0A => .ok (.ypp2rgb p.n0 p.n1 p.n2)
  | 0x0B => .ok (.clamp01 p.n0 p.n1 p.n2)
  | 0x0C => .ok (.denorm p.n0 p.n1 p.n2 (pw.comp p.den))
  | 0x10 => .ok (.btfwd p.n0 p.n1 p.n2 p.n3)
  | 0x11 => .ok (.btinv p.n0 p.n1 p.n2 p.n3)
  | 0x14 => .ok (.qavg p.n0)
  | 0x15 => .ok (.dqavg p.q.toNat)
  | 0x16 => .ok (.qdet p.n0)
  | 0x17 => .ok (.dqdet p.q.toInt)
  | 0x18 => .ok (.cidx p.n0)
  | 0x19 => .ok (.cval p.idx)
  | 0x1C => .ok (.blkenc (p.px0.carried pw) (p.px1.carried pw) (p.px2.carried pw) (p.px3.carried pw) (pw.comp p.den))
  | 0x1D => .ok (.blkdec p.packed)
  | _ => .error (.reservedOp p.op)

/-- The op code of a command (R72). -/
def Instr.op : Instr → BitVec 5
  | .fitsu _ _ => 0x01
  | .fitss _ _ => 0x02
  | .getu _ _ _ => 0x03
  | .gets _ _ _ => 0x04
  | .setu _ _ _ _ => 0x05
  | .sets _ _ _ _ => 0x06
  | .norm _ _ => 0x08
  | .rgb2ypp _ _ _ => 0x09
  | .ypp2rgb _ _ _ => 0x0A
  | .clamp01 _ _ _ => 0x0B
  | .denorm _ _ _ _ => 0x0C
  | .btfwd _ _ _ _ => 0x10
  | .btinv _ _ _ _ => 0x11
  | .qavg _ => 0x14
  | .dqavg _ => 0x15
  | .qdet _ => 0x16
  | .dqdet _ => 0x17
  | .cidx _ => 0x18
  | .cval _ => 0x19
  | .blkenc _ _ _ _ _ => 0x1C
  | .blkdec _ => 0x1D

/-- A port bundle that carries the command: its op code, its operands on the ports of R71, zero on the ports it does not
read (which "may hold anything", R75). -/
def encode (i : Instr) : Ports :=
  match i with
  | .fitsu value width => { op := i.op, value := value, width := width }
  | .fitss value width => { op := i.op, value := value, width := width }
  | .getu word width lsb => { op := i.op, word := word, width := width, lsb := lsb }
  | .gets word width lsb => { op := i.op, word := word, width := width, lsb := lsb }
  | .setu word width lsb value =>
    { op := i.op, word := word, width := width, lsb := lsb, value := value }
  | .sets word width lsb value =>
    { op := i.op, word := word, width := width, lsb := lsb, value := value }
  | .norm px0 den => { op := i.op, px0 := px0, den := den }
  | .rgb2ypp n0 n1 n2 => { op := i.op, n0 := n0, n1 := n1, n2 := n2 }
  | .ypp2rgb n0 n1 n2 => { op := i.op, n0 := n0, n1 := n1, n2 := n2 }
  | .clamp01 n0 n1 n2 => { op := i.op, n0 := n0, n1 := n1, n2 := n2 }
  | .denorm n0 n1 n2 den => { op := i.op, n0 := n0, n1 := n1, n2 := n2, den := den }
  | .btfwd n0 n1 n2 n3 => { op := i.op, n0 := n0, n1 := n1, n2 := n2, n3 := n3 }
  | .btinv n0 n1 n2 n3 => { op := i.op, n0 := n0, n1 := n1, n2 := n2, n3 := n3 }
  | .qavg n0 => { op := i.op, n0 := n0 }
  | .dqavg q => { op := i.op, q := BitVec.ofNat 6 q }
  | .qdet n0 => { op := i.op, n0 := n0 }
  | .dqdet q => { op := i.op, q := BitVec.ofInt 6 q }
  | .cidx n0 => { op := i.op, n0 := n0 }
  | .cval idx => { op := i.op, idx := idx }
  | .blkenc px0 px1 px2 px3 den =>
    { op := i.op, px0 := px0, px1 := px1, px2 := px2, px3 := px3, den := den }
  | .blkdec packed => { op := i.op, packed := packed }

/-- The operand ports of R26, by name. -/
inductive CmdPort
  | word | value | width | lsb | n0 | n1 | n2 | n3 | px0 | px1 | px2 | px3 | den | q | idx | packed
  deriving DecidableEq, Repr

/-- The result ports of R27, by name. -/
inductive ResultPort
  | fit | word | value | m0 | m1 | m2 | m3 | px0 | px1 | px2 | px3 | den | idx | packed
  deriving DecidableEq, Repr

/-- R71's column "reads", by op code: the operand ports a command with this `cmd.op` reads (none for a reserved code). -/
def opReads (op : BitVec 5) : List CmdPort :=
  match op.toNat with
  | 0x01 => [.value, .width]
  | 0x02 => [.value, .width]
  | 0x03 => [.word, .width, .lsb]
  | 0x04 => [.word, .width, .lsb]
  | 0x05 => [.word, .width, .lsb, .value]
  | 0x06 => [.word, .width, .lsb, .value]
  | 0x08 => [.px0, .den]
  | 0x09 => [.n0, .n1, .n2]
  | 0x0A => [.n0, .n1, .n2]
  | 0x0B => [.n0, .n1, .n2]
  | 0x0C => [.n0, .n1, .n2, .den]
  | 0x10 => [.n0, .n1, .n2, .n3]
  | 0x11 => [.n0, .n1, .n2, .n3]
  | 0x14 => [.n0]
  | 0x15 => [.q]
  | 0x16 => [.n0]
  | 0x17 => [.q]
  | 0x18 => [.n0]
  | 0x19 => [.idx]
  | 0x1C => [.px0, .px1, .px2, .px3, .den]
  | 0x1D => [.packed]
  | _ => []

/-- R71's column "drives on `OK`": the result ports a command drives when its status is `OK`. -/
def Instr.drives : Instr → List ResultPort
  | .fitsu _ _ => [.fit]
  | .fitss _ _ => [.fit]
  | .getu _ _ _ => [.value]
  | .gets _ _ _ => [.value]
  | .setu _ _ _ _ => [.word]
  | .sets _ _ _ _ => [.word]
  | .norm _ _ => [.m0, .m1, .m2]
  | .rgb2ypp _ _ _ => [.m0, .m1, .m2]
  | .ypp2rgb _ _ _ => [.m0, .m1, .m2]
  | .clamp01 _ _ _ => [.m0, .m1, .m2]
  | .denorm _ _ _ _ => [.px0]
  | .btfwd _ _ _ _ => [.m0, .m1, .m2, .m3]
  | .btinv _ _ _ _ => [.m0, .m1, .m2, .m3]
  | .qavg _ => [.value]
  | .dqavg _ => [.m0]
  | .qdet _ => [.value]
  | .dqdet _ => [.m0]
  | .cidx _ => [.idx]
  | .cval _ => [.m0]
  | .blkenc _ _ _ _ _ => [.packed]
  | .blkdec _ => [.px0, .px1, .px2, .px3, .den]

/-- Two port bundles carry the same value on the named operand port. -/
def Ports.sameOn (pw : Widths) (p p' : Ports) : CmdPort → Bool
  | .word => p.word == p'.word
  | .value => p.value == p'.value
  | .width => pw.desc p.width == pw.desc p'.width
  | .lsb => pw.desc p.lsb == pw.desc p'.lsb
  | .n0 => p.n0 == p'.n0
  | .n1 => p.n1 == p'.n1
  | .n2 => p.n2 == p'.n2
  | .n3 => p.n3 == p'.n3
  | .px0 => p.px0.carried pw == p'.px0.carried pw
  | .px1 => p.px1.carried pw == p'.px1.carried pw
  | .px2 => p.px2.carried pw == p'.px2.carried pw
  | .px3 => p.px3.carried pw == p'.px3.carried pw
  | .den => pw.comp p.den == pw.comp p'.den
  | .q => p.q == p'.q
  | .idx => p.idx == p'.idx
  | .packed => p.packed == p'.packed

/-- The eleven reserved op codes of R73. -/
def reservedOps : List (BitVec 5) :=
  [0x00, 0x07, 0x0D, 0x0E, 0x0F, 0x12, 0x13, 0x1A, 0x1B, 0x1E, 0x1F]

/-- The port bundle for an instruction of the opcode table: bits 4..0 of `w` are `cmd.op`, and every operand port
carries zero. The table gives a command no bits but these five, and the block has no wire for any other bit of `w`, so
`nbits` and the bits of `w` above bit 4 are not read. -/
def tableWordPorts (_nbits w : Nat) : Ports := { op := BitVec.ofNat 5 w }

/-- The command the decoder reads from an opcode-table word whose operand ports are all zero.
Ports at zero carry zero whatever their widths; the default widths are taken. -/
def decodeTableWord (nbits w : Nat) : Option Instr :=
  match decode {} (tableWordPorts nbits w) with
  | .ok i => some i
  | .error _ => none

end Sys2Proof
end

