-- ==== Sys2Proof/Machine/State.lean ====
section
/-! DEFINITION. The machine's state: the two elements the spec gives the block (`halted`, `cause`), beside them the
block's configuration, the host's input and the responses given (spec R20 to R30), and the state after reset (R230). -/

namespace Sys2Proof.Machine

/-- Why the machine could stop with a fault. It has no constructor: every fault of the spec is reported in a response and,
when fatal, sets the halt latch (R206, R207), which is a next state. Nobody raises a fault. That is safe: a type without
members lets no claim through that a fault would have stopped. -/
inductive Fault
  deriving DecidableEq, Repr

/-- Why the machine could refuse a command. -/
inductive Refusal
  /-- Raised by `exec`'s arm of a command that has no meaning yet, with its mnemonic; no arm is left in that state.
  Safe: nothing can be proved about a command that is refused. -/
  | notModelled (mnemonic : String)
  deriving DecidableEq, Repr

/-- What the 3-bit latch `cause` can hold: "legal values 0 to 4 ...; values 5 to 7 never occur" (R25, R77). -/
inductive Cause
  | none
  | overflow
  | contractViolation
  | illegalOp
  | domainFault
  deriving DecidableEq, Repr

/-- What the 3-bit port `rsp.status` can carry (R76; codes 6 and 7 are never produced). -/
inductive Status
  | ok
  | overflow
  | contractViolation
  | illegalOp
  | domainFault
  | halted
  deriving DecidableEq, Repr

/-- The fatal faults (R207). `overflow` is fatal in `BLKENC` alone (R201). -/
inductive FatalKind
  | overflow
  | contractViolation
  | illegalOp
  | domainFault
  deriving DecidableEq, Repr

/-- How a command's pseudocode ends when it does not `return OK`. -/
inductive Failure
  /-- The Overflow of a standalone `SETU` or `SETS`, which is recoverable (R206). -/
  | overflow
  /-- A fatal fault (R207). -/
  | fatal (k : FatalKind)
  deriving DecidableEq, Repr

/-- The result ports of R27. A port that "holds no value" is `none`, "an option type, not zero" (R27).
The ports whose width is a parameter (`px0` to `px3`, `den`) hold integers that fit them (`Results.fitsPorts`, in Safety). -/
structure Results where
  fit : Option Bool := none
  word : Option Word := none
  value : Option Word := none
  m0 : Option F := none
  m1 : Option F := none
  m2 : Option F := none
  m3 : Option F := none
  px0 : Option Pixel := none
  px1 : Option Pixel := none
  px2 : Option Pixel := none
  px3 : Option Pixel := none
  den : Option Nat := none
  idx : Option (BitVec 4) := none
  packed : Option (BitVec 32) := none
  deriving DecidableEq, Repr

/-- One response: the status, always driven, and the result ports (R27). -/
structure Response where
  status : Status
  ports : Results
  deriving DecidableEq, Repr

/-- What the host does to the block, in the order it does it (R26, R45, R231). -/
inductive HostEvent
  /-- The host issues the command that stands on the ports. -/
  | command (p : Ports)
  /-- `rst` is asserted and released. `abandoned` are the command in flight, if any, and the commands presented while
  `rst` is asserted: they get no response and have no effect (R231). -/
  | reset (abandoned : List Ports)
  deriving DecidableEq, Repr

/-- The machine. `halted` and `cause` are the block's whole architectural state (R20). The other fields are what R28 keeps
apart from it and a step still needs: the parameters, the host's stream of commands, the responses given. -/
structure State where
  /-- The halt latch: a fatal fault has occurred since the last reset (R21). -/
  halted : Bool
  /-- The code of the first fatal fault since the last reset (R21). -/
  cause : Cause
  /-- The parameters, "fixed before the first command" (R28); no rule writes them. -/
  cfg : Config
  /-- The host's input still to come, first event first (R28, R45). -/
  inputs : List HostEvent
  /-- The responses given since the last reset, oldest first; the response ports hold the last one, and no value while
  there is none (R27, R45, R230). -/
  responses : List Response
  deriving DecidableEq, Repr

/-- The parameters of the block that `State.reset` stands for: `NUM_Q` with the default tie rule and the external chroma
table and the default port widths. DESIGN CHOICE, unsafe for a claim that rests on it; notes/assumptions/1.md. -/
def referenceConfig : Config := { num := .exactRational .halfAwayFromZero, chroma := .external }

/-- After reset: `halted = 0`, `cause = 0`, no response yet (R30, R230); the host has issued nothing. -/
def State.reset : State :=
  { halted := false, cause := .none, cfg := referenceConfig, inputs := [], responses := [] }

end Sys2Proof.Machine
end

