-- ==== Sys2Proof/Machine/Operands.lean ====
section
/-! DEFINITION. Operand views, shifts and masks on Words (spec 00_scope section 4, R100, R110), and the functions that the
parameters `NUM`, `ROUND_TIES` and `CHROMA` stand for (spec 00_scope section 5, R7, R8, R9). -/

namespace Sys2Proof.Machine

/-! ### Words -/

/-- `u64(x)`: the pattern read as an unsigned integer. -/
def u64 (x : Word) : Nat := x.toNat

/-- `s64(x)`: the pattern read in two's complement; `u64(x) − 2^64` if bit 63 is 1. -/
def s64 (x : Word) : Int := if x.getLsbD 63 then (u64 x : Int) - 2 ^ 64 else (u64 x : Int)

/-- `shl64(x, n)`, with the explicit branch R110 and R240 ask for: 0 from 64 upward. -/
def shl64 (x : Word) (n : Nat) : Word := if 64 ≤ n then 0 else BitVec.ofNat 64 (u64 x * 2 ^ n)

/-- `shr64(x, n)`, with the explicit branch: 0 from 64 upward. -/
def shr64 (x : Word) (n : Nat) : Word := if 64 ≤ n then 0 else BitVec.ofNat 64 (u64 x / 2 ^ n)

/-- `mask(w) = 2^w − 1`, defined directly and not by a shift (R240); all ones for `w = 64`. -/
def mask (w : Nat) : Word := BitVec.ofNat 64 (2 ^ w - 1)

/-- `sext_64(u, w)` for `1 <= w <= 64` and a `w`-bit pattern `u`: bits 63..w all equal bit `w − 1` of `u`. -/
def sext64 (u : Word) (w : Nat) : Word := if u.getLsbD (w - 1) then u ||| ~~~(mask w) else u

/-- The field `(w, l)` of a Word as an unsigned pattern: `and64(shr64(W, l), mask(w))` (R105). -/
def field (W : Word) (w l : Nat) : Word := shr64 W l &&& mask w

/-- The Word with the field `(w, l)` replaced by the low `w` bits of `v` (R107, R108). -/
def setField (W : Word) (w l : Nat) (v : Word) : Word := (W &&& ~~~(shl64 (mask w) l)) ||| shl64 (v &&& mask w) l

/-! ### `NUM_Q` -/

/-- The integer at the greatest distance below: the largest integer that is at most `x`. -/
def floorQ (x : Rat) : Int := x.num / (x.den : Int)

/-- At a tie `k + 1/2`, whether `ROUND_TIES` goes up to `k + 1` (R9). Away from zero means up exactly for `k >= 0`:
`fround(1/2) = 1`, `fround(-1/2) = -1`, `fround(5/2) = 3`. -/
def tieUp : RoundTies → Int → Bool
  | .halfAwayFromZero, k => decide (0 ≤ k)
  | .other, k => Config.openTie k

/-- `fround` under `NUM_Q`: the nearest integer, a tie by `ROUND_TIES`; never `none`. -/
def froundQ (ties : RoundTies) (x : Rat) : Int :=
  let k := floorQ x
  let frac := x - (k : Rat)
  if frac < 1 / 2 then k
  else if 1 / 2 < frac then k + 1
  else if tieUp ties k then k + 1 else k

/-- `ftrunc` under `NUM_Q`: the integer part, toward zero; never `none`. -/
def ftruncQ (x : Rat) : Int := if x < 0 then -(floorQ (-x)) else floorQ x

/-- The rational a decimal literal denotes: `flit("0.299") = 299/1000`. -/
def DecLit.toRat (d : DecLit) : Rat := (d.digits : Rat) / (10 ^ d.places : Rat)

/-- The reference instantiation `NUM_Q` (R7): exact arithmetic and exact order on the rationals. -/
def numQ (ties : RoundTies) : NumOps where
  fint k := (k : Rat)
  flit d := DecLit.toRat d
  add x y := x + y
  sub x y := x - y
  mul x y := x * y
  div x y := x / y
  lt x y := decide (x < y)
  le x y := decide (x ≤ y)
  ge x y := decide (x ≥ y)
  gt x y := decide (x > y)
  fround x := some (froundQ ties x)
  ftrunc x := some (ftruncQ x)

/-- The `NUM` of a configuration. -/
def numOf (c : Config) : NumOps :=
  match c.num with
  | .exactRational ties => numQ ties
  | .implementation => Config.openNum

/-! ### `CHROMA` -/

/-- `T0.chroma_of(i)` of 95_test_vectors section 1, as decimal literals. -/
def t0Levels : List DecLit :=
  [⟨-35, 2⟩, ⟨-20, 2⟩, ⟨-15, 2⟩, ⟨-10, 2⟩, ⟨-77, 3⟩, ⟨-55, 3⟩, ⟨-33, 3⟩, ⟨-11, 3⟩,
   ⟨11, 3⟩, ⟨33, 3⟩, ⟨55, 3⟩, ⟨77, 3⟩, ⟨10, 2⟩, ⟨15, 2⟩, ⟨20, 2⟩, ⟨35, 2⟩]

/-- The level of an index of `T0`. -/
def t0Of (N : NumOps) (i : Nat) : F := N.flit (t0Levels.getD i ⟨0, 0⟩)

/-- The distance between two values. -/
def fdist (N : NumOps) (x y : F) : F := if N.lt x y then N.sub y x else N.sub x y

/-- Among the indices below `n + 1`, the lowest of those whose level is nearest to `x`. -/
def t0Nearest (N : NumOps) (x : F) : Nat → Nat
  | 0 => 0
  | n + 1 =>
    let best := t0Nearest N x n
    if N.lt (fdist N (t0Of N (n + 1)) x) (fdist N (t0Of N best) x) then n + 1 else best

/-- The test fixture `T0`: nearest level, "when two indices are equally near, the lower index". -/
def chromaT0 (N : NumOps) : Chroma where
  indexOf x := BitVec.ofNat 4 (t0Nearest N x 15)
  chromaOf i := t0Of N i.toNat

/-- The `CHROMA` of a configuration. -/
def chromaOfConfig (c : Config) : Chroma :=
  match c.chroma with
  | .external => Config.openChroma
  | .fixtureT0 => chromaT0 (numOf c)

end Sys2Proof.Machine
end

