-- ==== Sys2Proof/Machine/Flags.lean ====
section
/-! DEFINITION. The fit predicates (spec R102) and the numbers of the status and cause codes (spec R76, R77). The block has no
flag register (R24): a fit is a result port and an outcome is a status. -/

namespace Sys2Proof.Machine

/-- `fitsu(v, w)` (R102): always true from width 64 upward; else `u64(v) < 2^w`. -/
def fitsU (v : Word) (w : Nat) : Bool := if 64 ≤ w then true else decide (u64 v < 2 ^ w)

/-- `fitss(v, w)` (R102): always true from width 64 upward, never at width 0; else `−2^(w−1) <= s64(v) < 2^(w−1)`. -/
def fitsS (v : Word) (w : Nat) : Bool :=
  if 64 ≤ w then true
  else if w = 0 then false
  else decide (-(2 ^ (w - 1) : Int) ≤ s64 v) && decide (s64 v < (2 ^ (w - 1) : Int))

/-- `rsp.status` codes (R76). -/
def statusCode : Status → BitVec 3
  | .ok => 0
  | .overflow => 1
  | .contractViolation => 2
  | .illegalOp => 3
  | .domainFault => 4
  | .halted => 5

/-- `cause` codes (R77). -/
def causeCode : Cause → BitVec 3
  | .none => 0
  | .overflow => 1
  | .contractViolation => 2
  | .illegalOp => 3
  | .domainFault => 4

/-- The status that reports a fatal fault (R76, R207). -/
def fatalStatus : FatalKind → Status
  | .overflow => .overflow
  | .contractViolation => .contractViolation
  | .illegalOp => .illegalOp
  | .domainFault => .domainFault

/-- The cause a fatal fault latches (R77, R207). -/
def fatalCause : FatalKind → Cause
  | .overflow => .overflow
  | .contractViolation => .contractViolation
  | .illegalOp => .illegalOp
  | .domainFault => .domainFault

/-- The level output `halted_o` (R21). -/
def haltedO (s : State) : BitVec 1 := if s.halted then 1 else 0

/-- The level output `cause_o[2:0]` (R21). -/
def causeO (s : State) : BitVec 3 := causeCode s.cause

/-- What the response ports hold now: the last response, or no value before the first one after a reset (R27, R30). -/
def responsePorts (s : State) : Option Response := s.responses.getLast?

end Sys2Proof.Machine
end

