-- ==== Sys2Proof/Machine/Ops.lean ====
section
/-! DEFINITION. The shared operations: giving a response, taking a fault, refusing a command while halted, and reset, which is
the only return from a fatal fault (spec R205 to R210, R230, R231). -/

namespace Sys2Proof.Machine

/-- The outcome type of every meaning. -/
abbrev StepOutcome := Host.Outcome State Fault Refusal

/-- The values a command's pseudocode computes, or the fault it raises. -/
abbrev Result (α : Type) := Except Failure α

/-- `raise ContractViolation` (R202). -/
def raiseContractViolation {α : Type} : Result α := .error (.fatal .contractViolation)

/-- `raise DomainFault` (R204). -/
def raiseDomainFault {α : Type} : Result α := .error (.fatal .domainFault)

/-- `raise Overflow` (R201, R206): recoverable as it leaves `SETU` or `SETS`. -/
def raiseOverflow {α : Type} : Result α := .error .overflow

/-- What `BLKENC` makes of an Overflow of one of its sets: "propagate as fatal" (R201, R207). -/
def overflowIsFatal {α : Type} : Result α → Result α
  | .error .overflow => .error (.fatal .overflow)
  | r => r

/-- The block gives one response: the status and the result ports; nothing else changes (R27). -/
def respond (s : State) (status : Status) (ports : Results) : State :=
  { s with responses := s.responses ++ [{ status := status, ports := ports }] }

/-- Fatal fault entry (R207): the status is the fault's code, no result port holds a value, `halted <- 1`, `cause <- code`.
Nothing is saved and control goes nowhere. -/
def enterFatal (s : State) (k : FatalKind) : State :=
  { respond s (fatalStatus k) {} with halted := true, cause := fatalCause k }

/-- A command issued while `halted = 1` (R209): status `HALTED`, no result port holds a value, the latches keep their values. -/
def refuseHalted (s : State) : State := respond s .halted {}

/-- The end of one command, in the priority order of R205: Halted before anything the command computes; then its own
result: `OK` with its ports, the recoverable Overflow (R206), or a fatal fault (R207). -/
def finish (s : State) (r : Result Results) : State :=
  if s.halted then refuseHalted s
  else match r with
    | .ok ports => respond s .ok ports
    | .error .overflow => respond s .overflow {}
    | .error (.fatal k) => enterFatal s k

/-- A command always ends in a next state: it is answered (R27, R243). -/
def answer (s : State) (r : Result Results) : StepOutcome := .next (finish s r)

/-- A command with a reserved `cmd.op` (R73, R203): IllegalOp, after the Halted test (R205). -/
def answerIllegalOp (s : State) : StepOutcome := answer s (.error (.fatal .illegalOp))

/-- Reset (R230, R231): the latches are cleared, the response ports hold no value until the next response, the configuration
and the host's further input stay. "Reset is the only transition out of `halted = 1`" (R231, R210). -/
def resetBlock (s : State) : State := { s with halted := false, cause := .none, responses := [] }

/-- The descriptor check of R101, with an unbounded sum. -/
def checkDesc (w l : Nat) : Result Unit := if 64 < w ∨ 64 < w + l then raiseContractViolation else .ok ()

/-- An integer that must exist and lie in `lo..hi` to be put on its port; else DomainFault (R204 (b)). -/
def onPort (z : Option Int) (lo hi : Int) : Result Int :=
  match z with
  | none => raiseDomainFault
  | some z => if z < lo ∨ hi < z then raiseDomainFault else .ok z

end Sys2Proof.Machine
end

