-- ==== Sys2Proof/Machine/BitField.lean ====
section
/-! DEFINITION. The BitField family: FITSU, FITSS, GETU, GETS, SETU, SETS (spec R100 to R111). -/

namespace Sys2Proof.Machine

/-- `GETU` as a function (R105). -/
def getU (W : Word) (w l : Nat) : Result Word := do
  checkDesc w l
  return field W w l

/-- `GETS` as a function (R106): width 0 yields 0. -/
def getS (W : Word) (w l : Nat) : Result Word := do
  checkDesc w l
  return if w = 0 then 0 else sext64 (field W w l) w

/-- `SETU` as a function (R107): the descriptor first, then the fit. -/
def setU (W : Word) (w l : Nat) (v : Word) : Result Word := do
  checkDesc w l
  if fitsU v w then return setField W w l v else raiseOverflow

/-- `SETS` as a function (R108). -/
def setS (W : Word) (w l : Nat) (v : Word) : Result Word := do
  checkDesc w l
  if fitsS v w then return setField W w l v else raiseOverflow

/-- `FITSU value, width` (R103): no fault for any operand. -/
def execFitsu (value : Word) (width : Nat) (s : State) : StepOutcome :=
  answer s (.ok { fit := some (fitsU value width) })

/-- `FITSS value, width` (R104): no fault for any operand. -/
def execFitss (value : Word) (width : Nat) (s : State) : StepOutcome :=
  answer s (.ok { fit := some (fitsS value width) })

/-- `GETU word, width, lsb` (R105). -/
def execGetu (word : Word) (width lsb : Nat) (s : State) : StepOutcome :=
  answer s ((getU word width lsb).map fun v => { value := some v })

/-- `GETS word, width, lsb` (R106). -/
def execGets (word : Word) (width lsb : Nat) (s : State) : StepOutcome :=
  answer s ((getS word width lsb).map fun v => { value := some v })

/-- `SETU word, width, lsb, value` (R107). -/
def execSetu (word : Word) (width lsb : Nat) (value : Word) (s : State) : StepOutcome :=
  answer s ((setU word width lsb value).map fun v => { word := some v })

/-- `SETS word, width, lsb, value` (R108). -/
def execSets (word : Word) (width lsb : Nat) (value : Word) (s : State) : StepOutcome :=
  answer s ((setS word width lsb value).map fun v => { word := some v })

end Sys2Proof.Machine
end

