-- ==== Sys2Proof/Machine/BlockTransform.lean ====
section
/-! DEFINITION. The BlockTransform family: BTFWD, BTINV (spec R150 to R153). The kernel is fixed; the 1/4 is all in the forward
direction. -/

namespace Sys2Proof.Machine

/-- `BTFWD` as a function (R151): each sum left to right, then one division by `fint(4)`. -/
def forwardTransform (N : NumOps) (y : Quad) : Quad where
  x0 := N.div (N.add (N.add (N.add y.x0 y.x1) y.x2) y.x3) (N.fint 4)
  x1 := N.div (N.sub (N.sub (N.add y.x3 y.x2) y.x1) y.x0) (N.fint 4)
  x2 := N.div (N.sub (N.add (N.sub y.x3 y.x2) y.x1) y.x0) (N.fint 4)
  x3 := N.div (N.add (N.sub (N.sub y.x3 y.x2) y.x1) y.x0) (N.fint 4)

/-- `BTINV` as a function (R152), on the coefficients a, b, c, d. -/
def inverseTransform (N : NumOps) (k : Quad) : Quad where
  x0 := N.add (N.sub (N.sub k.x0 k.x1) k.x2) k.x3
  x1 := N.sub (N.add (N.sub k.x0 k.x1) k.x2) k.x3
  x2 := N.sub (N.sub (N.add k.x0 k.x1) k.x2) k.x3
  x3 := N.add (N.add (N.add k.x0 k.x1) k.x2) k.x3

/-- Four lanes on the result ports `m0..m3` (R150). -/
def quadResults (k : Quad) : Results := { m0 := some k.x0, m1 := some k.x1, m2 := some k.x2, m3 := some k.x3 }

/-- `BTFWD (y0,y1,y2,y3)` (R151). -/
def execBtfwd (n0 n1 n2 n3 : F) (s : State) : StepOutcome :=
  answer s (.ok (quadResults (forwardTransform (numOf s.cfg) ⟨n0, n1, n2, n3⟩)))

/-- `BTINV (a,b,c,d)` (R152). -/
def execBtinv (n0 n1 n2 n3 : F) (s : State) : StepOutcome :=
  answer s (.ok (quadResults (inverseTransform (numOf s.cfg) ⟨n0, n1, n2, n3⟩)))

end Sys2Proof.Machine
end

