-- ==== Sys2Proof/Machine/ColorTransform.lean ====
section
/-! DEFINITION. The ColorTransform family: NORM, RGB2YPP, YPP2RGB, CLAMP01, DENORM (spec R130 to R135). Every operation goes
through `NUM`, left to right as written (D4); the literals are the document's, digit for digit (G3). -/

namespace Sys2Proof.Machine

/-- `NORM` as a function (R131): elementwise divide; no range check; a zero denominator is a DomainFault. -/
def normalizePixel (N : NumOps) (px : Pixel) (den : Nat) : Result Triple :=
  if den = 0 then raiseDomainFault
  else
    let D := N.fint den
    .ok ⟨N.div (N.fint px.r) D, N.div (N.fint px.g) D, N.div (N.fint px.b) D⟩

/-- `RGB2YPP` as a function (R132). -/
def toLumaChroma (N : NumOps) (t : Triple) : Triple where
  x0 := N.add (N.add (N.mul (N.flit ⟨299, 3⟩) t.x0) (N.mul (N.flit ⟨587, 3⟩) t.x1)) (N.mul (N.flit ⟨114, 3⟩) t.x2)
  x1 := N.add (N.sub (N.mul (N.flit ⟨-168736, 6⟩) t.x0) (N.mul (N.flit ⟨331264, 6⟩) t.x1)) (N.mul (N.flit ⟨5, 1⟩) t.x2)
  x2 := N.sub (N.sub (N.mul (N.flit ⟨5, 1⟩) t.x0) (N.mul (N.flit ⟨418688, 6⟩) t.x1)) (N.mul (N.flit ⟨81312, 6⟩) t.x2)

/-- `YPP2RGB` as a function (R133); the result is not clamped. -/
def toRgb (N : NumOps) (t : Triple) : Triple where
  x0 := N.add t.x0 (N.mul (N.flit ⟨1402, 3⟩) t.x2)
  x1 := N.sub (N.sub t.x0 (N.mul (N.flit ⟨344136, 6⟩) t.x1)) (N.mul (N.flit ⟨714136, 6⟩) t.x2)
  x2 := N.add t.x0 (N.mul (N.flit ⟨1772, 3⟩) t.x1)

/-- One lane of `CLAMP01` (R134): a value for which both tests are false passes through. -/
def clampLane (N : NumOps) (x : F) : F :=
  if N.lt x (N.fint 0) then N.fint 0 else if N.gt x (N.fint 1) then N.fint 1 else x

/-- `CLAMP01` as a function (R134). -/
def clamp01 (N : NumOps) (t : Triple) : Triple := ⟨clampLane N t.x0, clampLane N t.x1, clampLane N t.x2⟩

/-- One lane of `DENORM` (R135): truncation toward zero; a DomainFault if the result is negative, above 2^CW − 1 or absent. -/
def denormLane (N : NumOps) (cw : Nat) (x : F) (den : Nat) : Result Nat := do
  let t ← onPort (N.ftrunc (N.mul x (N.fint den))) 0 (2 ^ cw - 1)
  return t.toNat

/-- `DENORM` as a function (R135). -/
def denormalize (N : NumOps) (cw : Nat) (t : Triple) (den : Nat) : Result Pixel := do
  let r ← denormLane N cw t.x0 den
  let g ← denormLane N cw t.x1 den
  let b ← denormLane N cw t.x2 den
  return ⟨r, g, b⟩

/-- A triple on the result ports `m0, m1, m2` (R130). -/
def tripleResults (t : Triple) : Results := { m0 := some t.x0, m1 := some t.x1, m2 := some t.x2 }

/-- `NORM (r,g,b), den` (R131). -/
def execNorm (px0 : Pixel) (den : Nat) (s : State) : StepOutcome :=
  answer s ((normalizePixel (numOf s.cfg) px0 den).map tripleResults)

/-- `RGB2YPP (r01,g01,b01)` (R132). -/
def execRgb2ypp (n0 n1 n2 : F) (s : State) : StepOutcome :=
  answer s (.ok (tripleResults (toLumaChroma (numOf s.cfg) ⟨n0, n1, n2⟩)))

/-- `YPP2RGB (y,pb,pr)` (R133). -/
def execYpp2rgb (n0 n1 n2 : F) (s : State) : StepOutcome :=
  answer s (.ok (tripleResults (toRgb (numOf s.cfg) ⟨n0, n1, n2⟩)))

/-- `CLAMP01 (r01,g01,b01)` (R134). -/
def execClamp01 (n0 n1 n2 : F) (s : State) : StepOutcome :=
  answer s (.ok (tripleResults (clamp01 (numOf s.cfg) ⟨n0, n1, n2⟩)))

/-- `DENORM (r01,g01,b01), den` (R135). -/
def execDenorm (n0 n1 n2 : F) (den : Nat) (s : State) : StepOutcome :=
  answer s ((denormalize (numOf s.cfg) s.cfg.widths.cw ⟨n0, n1, n2⟩ den).map fun p => { px0 := some p })

end Sys2Proof.Machine
end

