-- ==== Sys2Proof/Machine/Quantizer.lean ====
section
/-! DEFINITION. The Quantizer family: QAVG, DQAVG, QDET, DQDET, CIDX, CVAL (spec R160 to R167). -/

namespace Sys2Proof.Machine

/-- `QAVG` as a function (R161): `round(a01 × 63)`, no saturation; a DomainFault only without a 64-bit integer image. -/
def quantizeAverage (N : NumOps) (a01 : F) : Result Word := do
  let z ← onPort (N.fround (N.mul a01 (N.fint 63))) (-(2 ^ 63)) (2 ^ 63 - 1)
  return BitVec.ofInt 64 z

/-- `DQAVG` as a function (R162): `q / 63`. -/
def dequantizeAverage (N : NumOps) (q : Nat) : F := N.div (N.fint q) (N.fint 63)

/-- `QDET` as a function (R163): the two inclusive saturation tests, then `round(x × 50)`. -/
def quantizeDetail (N : NumOps) (x : F) : Result Word :=
  if N.le x (N.flit ⟨-3, 1⟩) then .ok (BitVec.ofInt 64 (-15))
  else if N.ge x (N.flit ⟨3, 1⟩) then .ok (BitVec.ofInt 64 15)
  else match N.fround (N.mul x (N.fint 50)) with
    | none => raiseDomainFault
    | some z => .ok (BitVec.ofInt 64 z)

/-- `DQDET` as a function (R164): `q / 50`, on the whole 6-bit signed range. -/
def dequantizeDetail (N : NumOps) (q : Int) : F := N.div (N.fint q) (N.fint 50)

/-- `QAVG a01` (R161). -/
def execQavg (n0 : F) (s : State) : StepOutcome :=
  answer s ((quantizeAverage (numOf s.cfg) n0).map fun v => { value := some v })

/-- `DQAVG q` (R162). -/
def execDqavg (q : Nat) (s : State) : StepOutcome :=
  answer s (.ok { m0 := some (dequantizeAverage (numOf s.cfg) q) })

/-- `QDET x` (R163). -/
def execQdet (n0 : F) (s : State) : StepOutcome :=
  answer s ((quantizeDetail (numOf s.cfg) n0).map fun v => { value := some v })

/-- `DQDET q` (R164). -/
def execDqdet (q : Int) (s : State) : StepOutcome :=
  answer s (.ok { m0 := some (dequantizeDetail (numOf s.cfg) q) })

/-- `CIDX chroma` (R165): the table's index, to which "the block adds nothing". -/
def execCidx (n0 : F) (s : State) : StepOutcome :=
  answer s (.ok { idx := some ((chromaOfConfig s.cfg).indexOf n0) })

/-- `CVAL i` (R166). -/
def execCval (idx : BitVec 4) (s : State) : StepOutcome :=
  answer s (.ok { m0 := some ((chromaOfConfig s.cfg).chromaOf idx) })

end Sys2Proof.Machine
end

