-- ==== Sys2Proof/Machine/BlockCodec.lean ====
section
/-! DEFINITION. The BlockCodec family: BLKENC, BLKDEC (spec R180 to R183), on the PackedBlock layout (spec R80 to R83). The two
commands chain the other families' functions; a fault inside one is a fault of the composite. -/

namespace Sys2Proof.Machine

/-- The six fields of a PackedBlock as the 64-bit patterns the sets take and the gets return (R78, R80). -/
structure PackedFields where
  a : Word
  b : Word
  c : Word
  d : Word
  pb : Word
  pr : Word
  deriving DecidableEq, Repr

/-- `PACK6` (R78): the six sets of BlockCodec encode step 5, in field order, on a Word that starts as 0 (R82).
Each field is at the width, the offset and with the signedness of R80. -/
def pack6 (f : PackedFields) : Result Word := do
  let w1 ← setU 0 6 26 f.a
  let w2 ← setS w1 6 20 f.b
  let w3 ← setS w2 6 14 f.c
  let w4 ← setS w3 6 8 f.d
  let w5 ← setU w4 4 4 f.pb
  setU w5 4 0 f.pr

/-- `UNPACK6` (R78): the six gets. -/
def unpack6 (W : Word) : Result PackedFields := do
  let a ← getU W 6 26
  let b ← getS W 6 20
  let c ← getS W 6 14
  let d ← getS W 6 8
  let pb ← getU W 4 4
  let pr ← getU W 4 0
  return ⟨a, b, c, d, pb, pr⟩

/-- Step 1 of `BLKENC` for one pixel: normalize, then the color transform (R181). -/
def pixelToYpp (N : NumOps) (px : Pixel) (den : Nat) : Result Triple := do
  let rgb ← normalizePixel N px den
  return toLumaChroma N rgb

/-- Step 2 of `BLKENC`: four chroma values summed left to right, then divided by `fint(4)` (R181). -/
def averageChroma (N : NumOps) (c0 c1 c2 c3 : F) : F := N.div (N.add (N.add (N.add c0 c1) c2) c3) (N.fint 4)

/-- Steps 3 and 4 of `BLKENC`: the forward transform of the luma, the quantizers, and the table for the two chroma averages,
in that order (R181, R205). -/
def quantizeBlock (N : NumOps) (C : Chroma) (t0 t1 t2 t3 : Triple) : Result PackedFields := do
  let k := forwardTransform N ⟨t0.x0, t1.x0, t2.x0, t3.x0⟩
  let qa ← quantizeAverage N k.x0
  let qb ← quantizeDetail N k.x1
  let qc ← quantizeDetail N k.x2
  let qd ← quantizeDetail N k.x3
  let ipb := C.indexOf (averageChroma N t0.x1 t1.x1 t2.x1 t3.x1)
  let ipr := C.indexOf (averageChroma N t0.x2 t1.x2 t2.x2 t3.x2)
  return ⟨qa, qb, qc, qd, ipb.setWidth 64, ipr.setWidth 64⟩

/-- Steps 1 to 4 of `BLKENC`: from four pixels to the six fields (R181). -/
def encodeFields (N : NumOps) (C : Chroma) (px0 px1 px2 px3 : Pixel) (den : Nat) : Result PackedFields := do
  let t0 ← pixelToYpp N px0 den
  let t1 ← pixelToYpp N px1 den
  let t2 ← pixelToYpp N px2 den
  let t3 ← pixelToYpp N px3 den
  quantizeBlock N C t0 t1 t2 t3

/-- `BLKENC` as a function (R181): the six fields, packed; the PackedBlock is bits 31..0 of the Word (R82). An Overflow of one
of the six sets is fatal here (R201). -/
def encodeBlock (N : NumOps) (C : Chroma) (px0 px1 px2 px3 : Pixel) (den : Nat) : Result (BitVec 32) := do
  let f ← encodeFields N C px0 px1 px2 px3 den
  let W ← overflowIsFatal (pack6 f)
  return W.setWidth 32

/-- Step 2 of `BLKDEC`: the four coefficients from the fields; a detail field is passed on as its low 6 bits, in two's
complement (R182). -/
def dequantizeFields (N : NumOps) (f : PackedFields) : Quad where
  x0 := dequantizeAverage N (f.a.setWidth 6).toNat
  x1 := dequantizeDetail N (f.b.setWidth 6).toInt
  x2 := dequantizeDetail N (f.c.setWidth 6).toInt
  x3 := dequantizeDetail N (f.d.setWidth 6).toInt

/-- Step 4 of `BLKDEC` for one position: to RGB, clamp, denormalize by 255 (R182). -/
def pixelFromYpp (N : NumOps) (cw : Nat) (t : Triple) : Result Pixel :=
  denormalize N cw (clamp01 N (toRgb N t)) 255

/-- Four pixels on the pixel ports, in the order of R52. -/
structure PxQuad where
  p0 : Pixel
  p1 : Pixel
  p2 : Pixel
  p3 : Pixel
  deriving DecidableEq, Repr

/-- `BLKDEC` as a function (R182); the PackedBlock is zero-extended to a Word (R82). -/
def decodeBlock (N : NumOps) (C : Chroma) (cw : Nat) (packed : BitVec 32) : Result PxQuad := do
  let f ← unpack6 (packed.setWidth 64)
  let pb := C.chromaOf (f.pb.setWidth 4)
  let pr := C.chromaOf (f.pr.setWidth 4)
  let y := inverseTransform N (dequantizeFields N f)
  let p0 ← pixelFromYpp N cw ⟨y.x0, pb, pr⟩
  let p1 ← pixelFromYpp N cw ⟨y.x1, pb, pr⟩
  let p2 ← pixelFromYpp N cw ⟨y.x2, pb, pr⟩
  let p3 ← pixelFromYpp N cw ⟨y.x3, pb, pr⟩
  return ⟨p0, p1, p2, p3⟩

/-- The result ports of `BLKDEC`: four pixels and `den`, "always 255" (R182). -/
def pxQuadResults (o : PxQuad) : Results :=
  { px0 := some o.p0, px1 := some o.p1, px2 := some o.p2, px3 := some o.p3, den := some 255 }

/-- `BLKENC px0, px1, px2, px3, den` (R181). -/
def execBlkenc (px0 px1 px2 px3 : Pixel) (den : Nat) (s : State) : StepOutcome :=
  answer s ((encodeBlock (numOf s.cfg) (chromaOfConfig s.cfg) px0 px1 px2 px3 den).map fun p => { packed := some p })

/-- `BLKDEC packed` (R182). -/
def execBlkdec (packed : BitVec 32) (s : State) : StepOutcome :=
  answer s ((decodeBlock (numOf s.cfg) (chromaOfConfig s.cfg) s.cfg.widths.cw packed).map pxQuadResults)

end Sys2Proof.Machine
end

