-- ==== Sys2Proof/Machine/Dispatch.lean ====
section
/-! DEFINITION. One arm per command of the opcode table (spec R72). -/

namespace Sys2Proof.Machine

def exec (i : Instr) (s : State) : Host.Outcome State Fault Refusal :=
  match i with
  | .fitsu value width => Sys2Proof.Machine.execFitsu value width s
  | .fitss value width => Sys2Proof.Machine.execFitss value width s
  | .getu word width lsb => Sys2Proof.Machine.execGetu word width lsb s
  | .gets word width lsb => Sys2Proof.Machine.execGets word width lsb s
  | .setu word width lsb value => Sys2Proof.Machine.execSetu word width lsb value s
  | .sets word width lsb value => Sys2Proof.Machine.execSets word width lsb value s
  | .norm px0 den => Sys2Proof.Machine.execNorm px0 den s
  | .rgb2ypp n0 n1 n2 => Sys2Proof.Machine.execRgb2ypp n0 n1 n2 s
  | .ypp2rgb n0 n1 n2 => Sys2Proof.Machine.execYpp2rgb n0 n1 n2 s
  | .clamp01 n0 n1 n2 => Sys2Proof.Machine.execClamp01 n0 n1 n2 s
  | .denorm n0 n1 n2 den => Sys2Proof.Machine.execDenorm n0 n1 n2 den s
  | .btfwd n0 n1 n2 n3 => Sys2Proof.Machine.execBtfwd n0 n1 n2 n3 s
  | .btinv n0 n1 n2 n3 => Sys2Proof.Machine.execBtinv n0 n1 n2 n3 s
  | .qavg n0 => Sys2Proof.Machine.execQavg n0 s
  | .dqavg q => Sys2Proof.Machine.execDqavg q s
  | .qdet n0 => Sys2Proof.Machine.execQdet n0 s
  | .dqdet q => Sys2Proof.Machine.execDqdet q s
  | .cidx n0 => Sys2Proof.Machine.execCidx n0 s
  | .cval idx => Sys2Proof.Machine.execCval idx s
  | .blkenc px0 px1 px2 px3 den => Sys2Proof.Machine.execBlkenc px0 px1 px2 px3 den s
  | .blkdec packed => Sys2Proof.Machine.execBlkdec packed s

end Sys2Proof.Machine
end

