-- ==== Sys2Proof/Machine/Step.lean ====
section
/-! DEFINITION. One step: the block takes the host's next event and answers it (spec R23, R45, R70, R231, R243). -/

namespace Sys2Proof.Machine

/-- One step. With no event the block waits and nothing changes. A command is taken off the input and executed whole, or
raises IllegalOp when its op code is reserved. A reset clears the latches. -/
def step (s : State) : Host.Outcome State Fault Refusal :=
  match s.inputs with
  | [] => .next s
  | .command p :: rest =>
    match decode s.cfg.widths p with
    | .ok i => exec i { s with inputs := rest }
    | .error _ => answerIllegalOp { s with inputs := rest }
  | .reset _ :: rest => .next (resetBlock { s with inputs := rest })

/-- `s` with the opcode-table word presented as the host's very next command, ahead of the input it already has. -/
def State.withFetchWord (s : State) (nbits w : Nat) : State :=
  { s with inputs := .command (tableWordPorts nbits w) :: s.inputs }

end Sys2Proof.Machine
end

