-- ==== Sys2Proof/Machine/Runs.lean ====
section
/-! DEFINITION. Runs of the block over the host's stream of commands, and several blocks side by side (spec R20, R45, R47). -/

namespace Sys2Proof.Machine

/-- The state after one step; a step of this block always answers a next state. -/
def advance (s : State) : State :=
  match step s with
  | .next t => t
  | .fault _ => s
  | .refused _ => s

/-- The state after `n` steps. -/
def advanceN : Nat → State → State
  | 0, s => s
  | n + 1, s => advanceN n (advance s)

/-- A block just reset, with its parameters, before which the host puts a stream of events. -/
def freshBlock (cfg : Config) (inputs : List HostEvent) : State := { State.reset with cfg := cfg, inputs := inputs }

/-- What a block just reset is after one command. -/
def afterOne (cfg : Config) (p : Ports) : State := advance (freshBlock cfg [.command p])

/-- The responses to a stream of commands as R20 and R209 describe them: as long as the block is not halted, each command gets
the response that a block just reset gives it; from the first fatal fault on, every command gets `HALTED`. -/
def expectedResponses (cfg : Config) : Bool → List Ports → List Response
  | _, [] => []
  | true, _ :: ps => { status := .halted, ports := {} } :: expectedResponses cfg true ps
  | false, p :: ps => (afterOne cfg p).responses ++ expectedResponses cfg (afterOne cfg p).halted ps

/-- The responses a block just reset gives to a stream of commands. -/
def responsesTo (cfg : Config) (cmds : List Ports) : List Response :=
  (advanceN cmds.length (freshBlock cfg (cmds.map .command))).responses

/-- Several blocks side by side, each with its own state (R47): block `k` takes a step. -/
def stepInstance (blocks : List State) (k : Nat) : List State := blocks.modify k advance

/-- Several blocks side by side take turns: the schedule names whose turn it is, one step a turn (R47). -/
def runSchedule : List Nat → List State → List State
  | [], blocks => blocks
  | k :: ks, blocks => runSchedule ks (stepInstance blocks k)

end Sys2Proof.Machine
end

