-- ==== Sys2Proof/Machine/StreamCodec.lean ====
section
/-! DEFINITION. The host around the block: the document's StreamCodec (spec R50 to R59, R220 to R223). It is outside the block
(R5): no command performs it. It drives the block with `BLKENC` and `BLKDEC` commands and reads their responses. -/

namespace Sys2Proof.Machine

/-- A byte of the host's stream. -/
abbrev Byte := BitVec 8

/-- What the host's format leaves open (D33, N14, N15); a claim quantifies over all of it. -/
structure StreamParams where
  /-- `STREAM_TAG`, the literal tag string. -/
  tag : List Byte
  /-- Whether a number of the header may be written with leading zeros. -/
  leadingZeros : Bool
  /-- Whether bytes after the last word are let pass. -/
  trailingBytes : Bool
  deriving DecidableEq, Repr

/-- How the host's encode or decode ends without output. -/
inductive HostError
  /-- R221. -/
  | malformedHeader
  /-- R222. -/
  | invalidDimensions
  /-- R223. -/
  | truncatedStream
  /-- Bytes after the last word, where `StreamParams.trailingBytes` does not let them pass; the document gives this no
  name (N15). -/
  | trailingBytes
  /-- A pixel component or the denominator does not fit its `CW`-bit port, so the host cannot issue the `BLKENC`. The document
  gives no component width and no largest denominator (N11) and this no name: DESIGN CHOICE, notes/assumptions/16.md. -/
  | doesNotFitPort
  /-- A response of the block was not `OK`: the block's fault is propagated as fatal (R201). -/
  | blockFault
  deriving DecidableEq, Repr

/-- An in-memory raster: its pixels row by row, accessed by (col, row), and its scale denominator (R50, R58). -/
structure Raster where
  width : Nat
  height : Nat
  den : Nat
  pixels : List Pixel
  deriving DecidableEq, Repr

/-- The pixel at (col, row). -/
def Raster.pixelAt (r : Raster) (col row : Nat) : Pixel := r.pixels.getD (row * r.width + col) ⟨0, 0, 0⟩

/-- `floor(W/2)`: an odd trailing column is dropped (R50). -/
def packedWidth (r : Raster) : Nat := r.width / 2

/-- `floor(H/2)`: an odd trailing row is dropped (R50). -/
def packedHeight (r : Raster) : Nat := r.height / 2

/-- All (i, j) of a grid in row-major order (R51, R54). -/
def gridWalk (w h : Nat) : List (Nat × Nat) :=
  (List.range h).flatMap fun j => (List.range w).map fun i => (i, j)

/-- The raster cut to its effective dimensions `W − (W mod 2)` by `H − (H mod 2)` (R50). -/
def crop (r : Raster) : Raster where
  width := r.width - r.width % 2
  height := r.height - r.height % 2
  den := r.den
  pixels := (gridWalk (r.width - r.width % 2) (r.height - r.height % 2)).map fun cr => r.pixelAt cr.1 cr.2

/-- The `BLKENC` command of the block at packed element (i, j): which pixel goes to which port (R52). Whether its operands fit
the ports is `encodeStream`'s question. -/
def blockCommand (r : Raster) (i j : Nat) : Instr :=
  .blkenc (r.pixelAt (2 * i) (2 * j)) (r.pixelAt (2 * i + 1) (2 * j))
    (r.pixelAt (2 * i) (2 * j + 1)) (r.pixelAt (2 * i + 1) (2 * j + 1)) r.den

/-- One `BLKENC` per block of the effective area (R51). -/
def encodeCommands (r : Raster) : List Instr :=
  (gridWalk (packedWidth r) (packedHeight r)).map fun ij => blockCommand r ij.1 ij.2

/-- A packed word as "exactly 4 bytes in big-endian order (most significant byte first)" (R54). -/
def wordBytes (p : BitVec 32) : List Byte :=
  [p.extractLsb' 24 8, p.extractLsb' 16 8, p.extractLsb' 8 8, p.extractLsb' 0 8]

/-- `p = {byte0, byte1, byte2, byte3}` (R56). -/
def bytesWord (b0 b1 b2 b3 : Byte) : BitVec 32 := b0 ++ b1 ++ b2 ++ b3

/-- The decimal digits of a number, least significant first; `fuel` bounds their count. -/
def digitsRev : Nat → Nat → List Nat
  | 0, _ => []
  | fuel + 1, n => if n < 10 then [n] else n % 10 :: digitsRev fuel (n / 10)

/-- "decimal ASCII" (R53). -/
def decimalAscii (n : Nat) : List Byte := ((digitsRev (n + 1) n).map fun d => BitVec.ofNat 8 (48 + d)).reverse

/-- `<tag-string> <packed_width> <packed_height>\n` (R53). -/
def streamHeader (sp : StreamParams) (w h : Nat) : List Byte :=
  sp.tag ++ [0x20] ++ decimalAscii w ++ [0x20] ++ decimalAscii h ++ [0x0A]

/-- The packed words of a list of responses, if every one of them is an `OK` that drives `packed`. -/
def packedWords : List Response → Option (List (BitVec 32))
  | [] => some []
  | r :: rs =>
    match r.ports.packed, packedWords rs with
    | some p, some ps => some (p :: ps)
    | _, _ => none

/-- `encode(source_raster) -> byte_stream` (R58): the header, then the words in row-major order. A raster whose components or
denominator do not fit the ports is not encoded: nothing is cut to the ports' width (notes/assumptions/16.md). -/
def encodeStream (sp : StreamParams) (cfg : Config) (r : Raster) : Except HostError (List Byte) :=
  if (encodeCommands r).all (Instr.wellFormed cfg.widths) then
    match packedWords (responsesTo cfg ((encodeCommands r).map encode)) with
    | some ps => .ok (streamHeader sp (packedWidth r) (packedHeight r) ++ ps.flatMap wordBytes)
    | none => .error .blockFault
  else .error .doesNotFitPort

/-- An ASCII decimal digit. -/
def isDigit (b : Byte) : Bool := decide (48 ≤ b.toNat) && decide (b.toNat ≤ 57)

/-- The value of a string of ASCII decimal digits. -/
def decimalValue (ds : List Byte) : Nat := ds.foldl (fun acc b => acc * 10 + (b.toNat - 48)) 0

/-- What is left of a stream after an exact prefix. -/
def dropPrefix : List Byte → List Byte → Option (List Byte)
  | [], bs => some bs
  | _ :: _, [] => none
  | t :: ts, b :: bs => if t = b then dropPrefix ts bs else none

/-- A decimal number at the head of a stream, and the rest. A number has a digit; whether it may begin with a superfluous 0 is
open (N15). A minus sign is no digit (R222). -/
def takeNumber (sp : StreamParams) (bs : List Byte) : Option (Nat × List Byte) :=
  let ds := bs.takeWhile isDigit
  if ds.isEmpty || (!sp.leadingZeros && decide (1 < ds.length) && ds.head? == some 0x30) then none
  else some (decimalValue ds, bs.dropWhile isDigit)

/-- The header of a stream: the two numbers and the body (R55, R221, R222). -/
def parseHeader (sp : StreamParams) (bs : List Byte) : Except HostError (Nat × Nat × List Byte) :=
  match dropPrefix (sp.tag ++ [0x20]) bs with
  | none => .error .malformedHeader
  | some r1 =>
    match takeNumber sp r1 with
    | none => .error .malformedHeader
    | some (w, r2) =>
      match dropPrefix [0x20] r2 with
      | none => .error .malformedHeader
      | some r3 =>
        match takeNumber sp r3 with
        | none => .error .malformedHeader
        | some (h, r4) =>
          match dropPrefix [0x0A] r4 with
          | none => .error .malformedHeader
          | some body => if w = 0 ∨ h = 0 then .error .invalidDimensions else .ok (w, h, body)

/-- "Read exactly packed_width × packed_height words": `n` words of 4 big-endian bytes, and the rest; end of input before the
last word is TruncatedStream (R56, R223). -/
def readWords : Nat → List Byte → Except HostError (List (BitVec 32) × List Byte)
  | 0, bs => .ok ([], bs)
  | n + 1, b0 :: b1 :: b2 :: b3 :: bs =>
    match readWords n bs with
    | .ok (ps, rest) => .ok (bytesWord b0 b1 b2 b3 :: ps, rest)
    | .error e => .error e
  | _ + 1, _ => .error .truncatedStream

/-- The four pixels of every response, if every one of them is an `OK` of `BLKDEC`. -/
def decodedBlocks : List Response → Option (List PxQuad)
  | [] => some []
  | r :: rs =>
    match r.ports.px0, r.ports.px1, r.ports.px2, r.ports.px3, decodedBlocks rs with
    | some p0, some p1, some p2, some p3, some qs => some (⟨p0, p1, p2, p3⟩ :: qs)
    | _, _, _, _, _ => none

/-- The pixel of a 2×2 block at sample index `row_parity·2 + col_parity` (R52). -/
def quadPixel (q : PxQuad) (colParity rowParity : Nat) : Pixel :=
  match rowParity, colParity with
  | 0, 0 => q.p0
  | 0, _ => q.p1
  | _, 0 => q.p2
  | _, _ => q.p3

/-- The output raster, "(2·packed_width)×(2·packed_height), fixed output denominator 255", each block scattered into its 2×2
region (R57). -/
def scatter (w h : Nat) (qs : List PxQuad) : Raster where
  width := 2 * w
  height := 2 * h
  den := 255
  pixels := (gridWalk (2 * w) (2 * h)).map fun cr =>
    quadPixel (qs.getD (cr.2 / 2 * w + cr.1 / 2) ⟨⟨0, 0, 0⟩, ⟨0, 0, 0⟩, ⟨0, 0, 0⟩, ⟨0, 0, 0⟩⟩) (cr.1 % 2) (cr.2 % 2)

/-- `decode(byte_stream) -> destination_raster` (R58). On an error there is no raster at all: no partial image is
valid output (R59). Where bytes after the last word are not let pass, they are reported before any `BLKDEC` is issued, so
before a fault of one: DESIGN CHOICE, the spec gives no order (N15; notes/assumptions/12.md). -/
def decodeStream (sp : StreamParams) (cfg : Config) (bs : List Byte) : Except HostError Raster :=
  match parseHeader sp bs with
  | .error e => .error e
  | .ok (w, h, body) =>
    match readWords (w * h) body with
    | .error e => .error e
    | .ok (ps, rest) =>
      if !sp.trailingBytes && !rest.isEmpty then .error .trailingBytes
      else match decodedBlocks (responsesTo cfg (ps.map fun p => encode (.blkdec p))) with
        | some qs => .ok (scatter w h qs)
        | none => .error .blockFault

end Sys2Proof.Machine
end

