-- ==== Sys2Proof/Safety.lean ====
section
/-! DEFINITION. What claims call a legal state and a sound run of the block (spec R21, R25, R27, R45, R207, R209). -/

namespace Sys2Proof.Machine

/-- Each result port with whether it holds a value, in R27's order. -/
def Results.occupancy (r : Results) : List (ResultPort × Bool) :=
  [(ResultPort.fit, r.fit.isSome), (ResultPort.word, r.word.isSome), (ResultPort.value, r.value.isSome),
   (ResultPort.m0, r.m0.isSome), (ResultPort.m1, r.m1.isSome), (ResultPort.m2, r.m2.isSome), (ResultPort.m3, r.m3.isSome),
   (ResultPort.px0, r.px0.isSome), (ResultPort.px1, r.px1.isSome), (ResultPort.px2, r.px2.isSome),
   (ResultPort.px3, r.px3.isSome), (ResultPort.den, r.den.isSome), (ResultPort.idx, r.idx.isSome),
   (ResultPort.packed, r.packed.isSome)]

/-- The result ports of a response that hold a value. -/
def Results.driven (r : Results) : List ResultPort := (r.occupancy.filter fun p => p.2).map fun p => p.1

/-- The values on the ports whose width is a parameter fit them: components and `den` in 0..2^CW−1 (R27, R74). -/
def Results.fitsPorts (pw : Widths) (r : Results) : Bool :=
  [r.px0, r.px1, r.px2, r.px3].all (fun o => o.all (Pixel.fits pw)) && r.den.all fun d => decide (d < 2 ^ pw.cw)

/-- A response that leaves the halt latch alone: `OK`, or the recoverable Overflow (R206). -/
def Response.harmless (r : Response) : Bool := r.status == .ok || r.status == .overflow

/-- The refusal of a command while halted (R209). -/
def Response.refusal : Response := { status := .halted, ports := {} }

/-- What a completed command leaves (R27, R76): one more response, `OK` with the named result ports; everything else as it
was. -/
def completed (s : State) (ports : Results) : State :=
  { s with responses := s.responses ++ [{ status := .ok, ports := ports }] }

/-- What the recoverable Overflow leaves (R206): one more response, `OVERFLOW` with no result port; everything else as it was. -/
def overflowed (s : State) : State :=
  { s with responses := s.responses ++ [{ status := .overflow, ports := {} }] }

/-- What a fatal fault leaves (R207): one more response with the fault's code and no result port, the latch set, the cause
latched; everything else as it was. -/
def faulted (s : State) (k : FatalKind) : State :=
  { s with halted := true, cause := fatalCause k,
           responses := s.responses ++ [{ status := fatalStatus k, ports := {} }] }

/-- What a command issued while halted leaves (R209): one more response, the refusal; everything else as it was. -/
def refused (s : State) : State := { s with responses := s.responses ++ [Response.refusal] }

/-- `halted = 0` exactly when `cause = 0` (R21, R25). -/
def latchesAgree (s : State) : Prop := s.halted = false ↔ s.cause = .none

/-- The responses since the last reset tell the latches' story (R21, R45, R207, R209): while the block is not halted every
response is harmless; once it is, they are harmless ones, then the response of the first fatal fault, whose code `cause`
holds, then refusals only. -/
def responsesTellLatches (s : State) : Prop :=
  if s.halted then
    ∃ before first after, s.responses = before ++ first :: after ∧
      (∀ r ∈ before, r.harmless = true) ∧
      statusCode first.status = causeCode s.cause ∧
      (∀ r ∈ after, r = Response.refusal)
  else ∀ r ∈ s.responses, r.harmless = true

/-- A result port holds a value only in a response whose status is `OK` (R27). -/
def onlyOkDrives (s : State) : Prop := ∀ r ∈ s.responses, r.status ≠ .ok → r.ports.driven = []

/-- Every response's values fit the ports they stand on (R27, R74). -/
def resultsFit (s : State) : Prop := ∀ r ∈ s.responses, r.ports.fitsPorts s.cfg.widths = true

/-- A legal state of the block, whose port widths are within R9's limits; every step keeps it. -/
def Legal (s : State) : Prop :=
  latchesAgree s ∧ responsesTellLatches s ∧ onlyOkDrives s ∧ resultsFit s ∧ s.cfg.widths.legal = true

/-- "a run that contains a `HALTED` response has gone wrong" (R209). -/
def GoneWrong (s : State) : Prop := ∃ r ∈ s.responses, r.status = .halted

/-- "normal operation" of `BLKENC` (R167, R232): `den` is not zero and no component exceeds it. -/
def normalPixel (den : Nat) (p : Pixel) : Prop := p.r ≤ den ∧ p.g ≤ den ∧ p.b ≤ den

/-- The exact luma of a pixel, before the division by the denominator (R132 under `NUM_Q`). -/
def exactLuma (p : Pixel) : Rat := (299 * p.r + 587 * p.g + 114 * p.b) / 1000

/-- The set and the get of one signedness, for the laws that hold of both (R109). -/
def setBy (signed : Bool) : Word → Nat → Nat → Word → Result Word := if signed then setS else setU

end Sys2Proof.Machine
end

