-- ==== Sys2Proof/Certificates/Slice0/Obligations.lean ====
section
/-! DEFINITION. The statements for the provers, in the order of OBLIGATIONS.json. -/

open Sys2Proof Sys2Proof.Machine

/-! ### Reset and the host's events -/

/-- R30: after reset `halted = 0` and `cause = 0`, seen on the outputs too, and the response ports hold no value. -/
def Obligations.ResetStateIsNotHalted : Prop :=
  State.reset.halted = false ∧ State.reset.cause = .none ∧ haltedO State.reset = 0 ∧ causeO State.reset = 0 ∧
    responsePorts State.reset = none

/-- R230, R231: a reset event clears both latches and empties the response ports, leaves the configuration and the further
input alone, and gives the abandoned commands no response and no effect. -/
def Obligations.ResetEventClearsTheLatches : Prop :=
  ∀ (s : State) (abandoned : List Ports) (rest : List HostEvent), s.inputs = .reset abandoned :: rest →
    step s = .next { halted := false, cause := .none, cfg := s.cfg, inputs := rest, responses := [] }

/-- R210, R231: whatever step leaves `halted = 1` took a reset event. -/
def Obligations.OnlyResetLeavesHalted : Prop :=
  ∀ s t : State, step s = .next t → s.halted = true → t.halted = false →
    ∃ abandoned rest, s.inputs = .reset abandoned :: rest

/-- R28: no step writes the configuration. -/
def Obligations.ConfigurationNeverChanges : Prop :=
  ∀ s t : State, step s = .next t → t.cfg = s.cfg

/-- R27, R243: every step answers a next state. -/
def Obligations.EveryStepAnswers : Prop :=
  ∀ s : State, ∃ t, step s = .next t

/-! ### Encoding -/

/-- R72: each op code of the table, with every operand port at zero, decodes to its command. -/
def Obligations.TableWordsDecode : Prop :=
  decodeTableWord 8 0x01 = some (.fitsu 0 0) ∧ decodeTableWord 8 0x02 = some (.fitss 0 0) ∧
  decodeTableWord 8 0x03 = some (.getu 0 0 0) ∧ decodeTableWord 8 0x04 = some (.gets 0 0 0) ∧
  decodeTableWord 8 0x05 = some (.setu 0 0 0 0) ∧ decodeTableWord 8 0x06 = some (.sets 0 0 0 0) ∧
  decodeTableWord 8 0x08 = some (.norm ⟨0, 0, 0⟩ 0) ∧ decodeTableWord 8 0x09 = some (.rgb2ypp 0 0 0) ∧
  decodeTableWord 8 0x0A = some (.ypp2rgb 0 0 0) ∧ decodeTableWord 8 0x0B = some (.clamp01 0 0 0) ∧
  decodeTableWord 8 0x0C = some (.denorm 0 0 0 0) ∧ decodeTableWord 8 0x10 = some (.btfwd 0 0 0 0) ∧
  decodeTableWord 8 0x11 = some (.btinv 0 0 0 0) ∧ decodeTableWord 8 0x14 = some (.qavg 0) ∧
  decodeTableWord 8 0x15 = some (.dqavg 0) ∧ decodeTableWord 8 0x16 = some (.qdet 0) ∧
  decodeTableWord 8 0x17 = some (.dqdet 0) ∧ decodeTableWord 8 0x18 = some (.cidx 0) ∧
  decodeTableWord 8 0x19 = some (.cval 0) ∧
  decodeTableWord 8 0x1C = some (.blkenc ⟨0, 0, 0⟩ ⟨0, 0, 0⟩ ⟨0, 0, 0⟩ ⟨0, 0, 0⟩ 0) ∧
  decodeTableWord 8 0x1D = some (.blkdec 0)

/-- R71, R72, R74: decoding the ports of any well-formed command gives it back, every operand at every value its port can
carry, for every port width. -/
def Obligations.DecodeOfEncode : Prop :=
  ∀ (pw : Widths) (i : Instr), i.wellFormed pw = true → decode pw (encode i) = .ok i

/-- R71, R74, R75: a decoded command is well-formed, has the op code on the port, and its own encoding carries the same
value on every operand port it reads. -/
def Obligations.EncodeOfDecode : Prop :=
  ∀ (pw : Widths) (p : Ports) (i : Instr), decode pw p = .ok i →
    i.wellFormed pw = true ∧ (encode i).op = p.op ∧ ∀ c ∈ opReads p.op, (encode i).sameOn pw p c = true

/-- R73, R203: a command with one of the eleven reserved op codes raises the fatal IllegalOp, and every other op code is a
command. -/
def Obligations.ReservedOpsRaiseIllegalOp : Prop :=
  ∀ (s : State) (p : Ports) (rest : List HostEvent), s.inputs = .command p :: rest → s.halted = false →
    if p.op ∈ [0x00#5, 0x07#5, 0x0D#5, 0x0E#5, 0x0F#5, 0x12#5, 0x13#5, 0x1A#5, 0x1B#5, 0x1E#5, 0x1F#5] then
      step s = .next (faulted { s with inputs := rest } .illegalOp)
    else ∃ i, decode s.cfg.widths p = .ok i

/-- R75: two port bundles with the same op code that agree on the ports R71 lets that command read are answered alike. -/
def Obligations.UnreadPortsAreIgnored : Prop :=
  ∀ (s : State) (p p' : Ports) (rest : List HostEvent), p.op = p'.op →
    (∀ c ∈ opReads p.op, p.sameOn s.cfg.widths p' c = true) →
      step { s with inputs := .command p :: rest } = step { s with inputs := .command p' :: rest }

/-- R23, R45, R70: a step takes the host's next command off the input and runs the command it decodes to; with no event it
changes nothing (the second clause is the model's choice, notes/assumptions/6.md). -/
def Obligations.StepRunsTheDecodedCommand : Prop :=
  (∀ (s : State) (p : Ports) (rest : List HostEvent) (i : Instr),
    s.inputs = .command p :: rest → decode s.cfg.widths p = .ok i → step s = exec i { s with inputs := rest }) ∧
  (∀ s : State, s.inputs = [] → step s = .next s)

/-! ### Faults and responses -/

/-- R209: while halted every command, reserved op codes and malformed descriptors included, gets the refusal, and nothing
else changes. -/
def Obligations.HaltedRefusesEveryCommand : Prop :=
  ∀ s : State, s.halted = true →
    (∀ (p : Ports) (rest : List HostEvent), s.inputs = .command p :: rest →
      step s = .next { s with inputs := rest, responses := s.responses ++ [{ status := .halted, ports := {} }] }) ∧
    (∀ i : Instr, exec i s = .next { s with responses := s.responses ++ [{ status := .halted, ports := {} }] })

/-- R207, R208: a command that sets the halt latch does that, latches its code, reports the same code with no result port,
and changes nothing else. -/
def Obligations.FatalFaultEntry : Prop :=
  ∀ (s t : State) (p : Ports) (rest : List HostEvent), s.inputs = .command p :: rest → s.halted = false →
    step s = .next t → t.halted = true →
    ∃ k : FatalKind, t = faulted { s with inputs := rest } k ∧
      statusCode (fatalStatus k) = causeCode (fatalCause k)

/-- R20, R27, R45, R206, R207: a command gets exactly one response, after the earlier ones; a response that is not `OK` drives
no result port; the configuration and the further input stay; and the latches stay unless the command was answered by
a fatal fault. -/
def Obligations.OneResponsePerCommandAndFrame : Prop :=
  ∀ (s t : State) (p : Ports) (rest : List HostEvent), s.inputs = .command p :: rest → step s = .next t →
    t.cfg = s.cfg ∧ t.inputs = rest ∧
    ∃ r : Response, t.responses = s.responses ++ [r] ∧ (r.status ≠ .ok → r.ports.driven = []) ∧
      ((t.halted = s.halted ∧ t.cause = s.cause) ∨
        (s.halted = false ∧ t.halted = true ∧ causeCode t.cause = statusCode r.status ∧ t.cause ≠ .none))

/-- R27, R71: a command answered `OK` drives exactly the result ports of R71's table. -/
def Obligations.OkDrivesTheTablesPorts : Prop :=
  ∀ (s t : State) (i : Instr) (r : Response), s.halted = false → exec i s = .next t →
    t.responses = s.responses ++ [r] → (r.status = .ok ↔ r.ports.driven = i.drives)

/-- R200: which commands each fault kind can come from. The eleven other commands are always answered `OK`. -/
def Obligations.FaultsComeOnlyFromTheirCommands : Prop :=
  ∀ (s t : State) (i : Instr) (r : Response), s.halted = false → exec i s = .next t →
    t.responses = s.responses ++ [r] →
    (r.status = .overflow → i.op ∈ [0x05#5, 0x06#5, 0x1C#5]) ∧
    (r.status = .contractViolation → i.op ∈ [0x03#5, 0x04#5, 0x05#5, 0x06#5]) ∧
    (r.status = .domainFault → i.op ∈ [0x08#5, 0x0C#5, 0x14#5, 0x16#5, 0x1C#5, 0x1D#5]) ∧
    r.status ≠ .illegalOp ∧ r.status ≠ .halted ∧
    (t.halted = true ↔ r.status ≠ .ok ∧ (r.status = .overflow → i.op = 0x1C#5))

/-- R202: ContractViolation is raised by the four commands with a descriptor, exactly when it is malformed. -/
def Obligations.ContractViolationExactlyOnMalformedDescriptor : Prop :=
  ∀ (s : State) (i : Instr), s.halted = false →
    (exec i s = .next (faulted s .contractViolation) ↔
      match i with
      | .getu _ w l => 64 < w ∨ 64 < w + l
      | .gets _ w l => 64 < w ∨ 64 < w + l
      | .setu _ w l _ => 64 < w ∨ 64 < w + l
      | .sets _ w l _ => 64 < w ∨ 64 < w + l
      | _ => False)

/-- R204 under `NUM_Q`, for every legal port width: DomainFault comes exactly from a zero denominator in `NORM` and `BLKENC`, from
a lane of `DENORM` whose truncated product does not fit the port, and from an average, of `QAVG` or inside `BLKENC`, whose
product has no 64-bit integer image. Inside `BLKENC` the last cannot be for components of up to 57 bits, as R204 and R181 say;
that it can be for some wider ones departs from their words, and is what R161's range gives there: the model's reading
(DEDUCED, notes/assumptions/4.md). -/
def Obligations.DomainFaultExactlyUnderNumQ : Prop :=
  ∀ (s : State) (i : Instr) (ties : RoundTies), s.halted = false → s.cfg.num = .exactRational ties →
    s.cfg.widths.legal = true → i.wellFormed s.cfg.widths = true →
    (exec i s = .next (faulted s .domainFault) ↔
      match i with
      | .norm _ den => den = 0
      | .blkenc p0 p1 p2 p3 den => den = 0 ∨
          2 ^ 63 ≤ froundQ ties ((exactLuma p0 + exactLuma p1 + exactLuma p2 + exactLuma p3) / (4 * den) * 63)
      | .denorm n0 n1 n2 den => ∃ x ∈ [n0, n1, n2], x * (den : Rat) ≤ -1 ∨ 2 ^ s.cfg.widths.cw ≤ x * (den : Rat)
      | .qavg a => froundQ ties (a * 63) < -(2 ^ 63) ∨ 2 ^ 63 ≤ froundQ ties (a * 63)
      | _ => False) ∧
    (s.cfg.widths.cw ≤ 57 → ∀ p0 p1 p2 p3 den, i = .blkenc p0 p1 p2 p3 den →
      (exec i s = .next (faulted s .domainFault) ↔ den = 0))

/-! ### BitField -/

/-- R103 with R102: `FITSU` completes for every operand and answers whether the value fits. -/
def Obligations.FitsuCompletes : Prop :=
  (∀ (pw : Widths) (p : Ports), p.op = 0x01 → decode pw p = .ok (.fitsu p.value (p.width % 2 ^ pw.dw))) ∧
  ∀ (s : State) (value : Word) (width : Nat), s.halted = false →
    exec (.fitsu value width) s =
      .next (completed s { fit := some (decide (64 ≤ width ∨ value.toNat < 2 ^ width)) })

/-- R104 with R102: `FITSS` completes for every operand; width 0 never fits. -/
def Obligations.FitssCompletes : Prop :=
  (∀ (pw : Widths) (p : Ports), p.op = 0x02 → decode pw p = .ok (.fitss p.value (p.width % 2 ^ pw.dw))) ∧
  ∀ (s : State) (value : Word) (width : Nat), s.halted = false →
    exec (.fitss value width) s =
      .next (completed s { fit := some (decide (64 ≤ width ∨
        (width ≠ 0 ∧ -(2 ^ (width - 1) : Int) ≤ value.toInt ∧ value.toInt < 2 ^ (width - 1)))) })

/-- R105: `GETU` extracts the field, zero-extended, for every legal descriptor, and raises ContractViolation for every
other. -/
def Obligations.GetuCompletes : Prop :=
  (∀ (pw : Widths) (p : Ports), p.op = 0x03 →
    decode pw p = .ok (.getu p.word (p.width % 2 ^ pw.dw) (p.lsb % 2 ^ pw.dw))) ∧
  ∀ (s : State) (word : Word) (width lsb : Nat), s.halted = false →
    (width + lsb ≤ 64 → exec (.getu word width lsb) s =
      .next (completed s { value := some (BitVec.ofNat 64 (word.toNat / 2 ^ lsb % 2 ^ width)) })) ∧
    (64 < width + lsb → exec (.getu word width lsb) s = .next (faulted s .contractViolation))

/-- R106: `GETS` extracts the field and sign-extends it from its top bit; width 0 yields 0. -/
def Obligations.GetsCompletes : Prop :=
  (∀ (pw : Widths) (p : Ports), p.op = 0x04 →
    decode pw p = .ok (.gets p.word (p.width % 2 ^ pw.dw) (p.lsb % 2 ^ pw.dw))) ∧
  ∀ (s : State) (word : Word) (width lsb : Nat), s.halted = false →
    (width + lsb ≤ 64 → ∃ v : Word, exec (.gets word width lsb) s = .next (completed s { value := some v }) ∧
      (width = 0 → v = 0) ∧
      (0 < width → v.toInt =
        (if 2 ^ (width - 1) ≤ word.toNat / 2 ^ lsb % 2 ^ width
          then ((word.toNat / 2 ^ lsb % 2 ^ width : Nat) : Int) - 2 ^ width
          else ((word.toNat / 2 ^ lsb % 2 ^ width : Nat) : Int)))) ∧
    (64 < width + lsb → exec (.gets word width lsb) s = .next (faulted s .contractViolation))

/-- R107: `SETU` replaces the field by the value and keeps every other bit, when the descriptor is legal and the value fits;
a malformed descriptor is a ContractViolation whatever the value; a value that does not fit is a recoverable Overflow. -/
def Obligations.SetuCompletes : Prop :=
  (∀ (pw : Widths) (p : Ports), p.op = 0x05 →
    decode pw p = .ok (.setu p.word (p.width % 2 ^ pw.dw) (p.lsb % 2 ^ pw.dw) p.value)) ∧
  ∀ (s : State) (word value : Word) (width lsb : Nat), s.halted = false →
    (64 < width + lsb → exec (.setu word width lsb value) s = .next (faulted s .contractViolation)) ∧
    (width + lsb ≤ 64 → ¬ value.toNat < 2 ^ width → exec (.setu word width lsb value) s = .next (overflowed s)) ∧
    (width + lsb ≤ 64 → value.toNat < 2 ^ width →
      ∃ W : Word, exec (.setu word width lsb value) s = .next (completed s { word := some W }) ∧
        ∀ i < 64, W.getLsbD i = if lsb ≤ i ∧ i < lsb + width then value.getLsbD (i - lsb) else word.getLsbD i)

/-- R108: `SETS`, as `SETU` with the signed fit; at width 0 every value overflows. -/
def Obligations.SetsCompletes : Prop :=
  (∀ (pw : Widths) (p : Ports), p.op = 0x06 →
    decode pw p = .ok (.sets p.word (p.width % 2 ^ pw.dw) (p.lsb % 2 ^ pw.dw) p.value)) ∧
  ∀ (s : State) (word value : Word) (width lsb : Nat), s.halted = false →
    (64 < width + lsb → exec (.sets word width lsb value) s = .next (faulted s .contractViolation)) ∧
    (width + lsb ≤ 64 →
      ¬ (0 < width ∧ -(2 ^ (width - 1) : Int) ≤ value.toInt ∧ value.toInt < 2 ^ (width - 1)) →
      exec (.sets word width lsb value) s = .next (overflowed s)) ∧
    (width + lsb ≤ 64 → 0 < width → -(2 ^ (width - 1) : Int) ≤ value.toInt → value.toInt < 2 ^ (width - 1) →
      ∃ W : Word, exec (.sets word width lsb value) s = .next (completed s { word := some W }) ∧
        ∀ i < 64, W.getLsbD i = if lsb ≤ i ∧ i < lsb + width then value.getLsbD (i - lsb) else word.getLsbD i)

/-- R109: the unsigned round trip. What `SETU` answers, `GETU` of the same field gives back. -/
def Obligations.GetuAfterSetu : Prop :=
  ∀ (s : State) (word value : Word) (width lsb : Nat), s.halted = false → width + lsb ≤ 64 →
    value.toNat < 2 ^ width →
    ∃ W : Word, exec (.setu word width lsb value) s = .next (completed s { word := some W }) ∧
      exec (.getu W width lsb) s = .next (completed s { value := some value })

/-- R109: the signed round trip, negative values included. -/
def Obligations.GetsAfterSets : Prop :=
  ∀ (s : State) (word value : Word) (width lsb : Nat), s.halted = false → width + lsb ≤ 64 → 0 < width →
    -(2 ^ (width - 1) : Int) ≤ value.toInt → value.toInt < 2 ^ (width - 1) →
    ∃ W : Word, exec (.sets word width lsb value) s = .next (completed s { word := some W }) ∧
      exec (.gets W width lsb) s = .next (completed s { value := some value })

/-- R109 (i) to (iv), for the unsigned and the signed set alike (`setBy`): two sets to disjoint fields commute, also one of each
kind; setting a field to what it holds changes nothing; the signed get is the unsigned get modulo 2^w; of two sets to the
same field, also one of each kind, only the second counts. -/
def Obligations.FieldSetLaws : Prop :=
  (∀ (k k' : Bool) (W v v' : Word) (w l w' l' : Nat), w + l ≤ 64 → w' + l' ≤ 64 → (l + w ≤ l' ∨ l' + w' ≤ l) →
    ∀ W1 W2 W12 W21 : Word, setBy k W w l v = .ok W1 → setBy k' W1 w' l' v' = .ok W12 →
      setBy k' W w' l' v' = .ok W2 → setBy k W2 w l v = .ok W21 → W12 = W21) ∧
  (∀ (W v : Word) (w l : Nat), getU W w l = .ok v → setU W w l v = .ok W) ∧
  (∀ (W v : Word) (w l : Nat), 0 < w → getS W w l = .ok v → setS W w l v = .ok W) ∧
  (∀ (W v : Word) (w l : Nat), 0 < w → getS W w l = .ok v → getU W w l = .ok (BitVec.ofNat 64 (v.toNat % 2 ^ w))) ∧
  (∀ (k k' : Bool) (W v v' W1 : Word) (w l : Nat), setBy k W w l v = .ok W1 → setBy k' W1 w l v' = setBy k' W w l v')

/-! ### ColorTransform -/

/-- R131: `NORM` divides each component by the denominator through `NUM`, with no range check; a zero denominator is a
DomainFault; under `NUM_Q` the lanes are the rationals `c / den`. -/
def Obligations.NormCompletes : Prop :=
  (∀ (pw : Widths) (p : Ports), p.op = 0x08 → decode pw p =
    .ok (.norm ⟨p.px0.r % 2 ^ pw.cw, p.px0.g % 2 ^ pw.cw, p.px0.b % 2 ^ pw.cw⟩ (p.den % 2 ^ pw.cw))) ∧
  ∀ (s : State) (px : Pixel) (den : Nat), s.halted = false →
    (den = 0 → exec (.norm px den) s = .next (faulted s .domainFault)) ∧
    (den ≠ 0 → ∀ N, N = numOf s.cfg → exec (.norm px den) s = .next (completed s
      { m0 := some (N.div (N.fint px.r) (N.fint den)), m1 := some (N.div (N.fint px.g) (N.fint den)),
        m2 := some (N.div (N.fint px.b) (N.fint den)) })) ∧
    (den ≠ 0 → ∀ ties, s.cfg.num = .exactRational ties → exec (.norm px den) s = .next (completed s
      { m0 := some ((px.r : Rat) / den), m1 := some ((px.g : Rat) / den), m2 := some ((px.b : Rat) / den) }))

/-- R132: `RGB2YPP` is the document's linear map with its literals; for every `NUM` each sum is formed left to right, one
operation at a time, and under `NUM_Q` exactly. -/
def Obligations.Rgb2yppCompletes : Prop :=
  (∀ (pw : Widths) (p : Ports), p.op = 0x09 → decode pw p = .ok (.rgb2ypp p.n0 p.n1 p.n2)) ∧
  ∀ (s : State) (r g b : F), s.halted = false →
    (∀ N, N = numOf s.cfg → exec (.rgb2ypp r g b) s = .next (completed s
      { m0 := some (N.add (N.add (N.mul (N.flit ⟨299, 3⟩) r) (N.mul (N.flit ⟨587, 3⟩) g)) (N.mul (N.flit ⟨114, 3⟩) b)),
        m1 := some (N.add (N.sub (N.mul (N.flit ⟨-168736, 6⟩) r) (N.mul (N.flit ⟨331264, 6⟩) g)) (N.mul (N.flit ⟨5, 1⟩) b)),
        m2 := some (N.sub (N.sub (N.mul (N.flit ⟨5, 1⟩) r) (N.mul (N.flit ⟨418688, 6⟩) g)) (N.mul (N.flit ⟨81312, 6⟩) b)) })) ∧
    (∀ ties, s.cfg.num = .exactRational ties → exec (.rgb2ypp r g b) s = .next (completed s
      { m0 := some (299 / 1000 * r + 587 / 1000 * g + 114 / 1000 * b),
        m1 := some (-168736 / 1000000 * r - 331264 / 1000000 * g + 1 / 2 * b),
        m2 := some (1 / 2 * r - 418688 / 1000000 * g - 81312 / 1000000 * b) }))

/-- R132, corner cases under `NUM_Q`: a gray input has its own luma and no chroma; inputs in [0,1] give luma in [0,1] and
chroma in [−1/2, 1/2]. -/
def Obligations.LumaChromaRanges : Prop :=
  ∀ ties : RoundTies,
    (∀ t : Rat, toLumaChroma (numQ ties) ⟨t, t, t⟩ = ⟨t, 0, 0⟩) ∧
    (∀ r g b : Rat, 0 ≤ r → r ≤ 1 → 0 ≤ g → g ≤ 1 → 0 ≤ b → b ≤ 1 →
      0 ≤ (toLumaChroma (numQ ties) ⟨r, g, b⟩).x0 ∧ (toLumaChroma (numQ ties) ⟨r, g, b⟩).x0 ≤ 1 ∧
      |(toLumaChroma (numQ ties) ⟨r, g, b⟩).x1| ≤ 1 / 2 ∧ |(toLumaChroma (numQ ties) ⟨r, g, b⟩).x2| ≤ 1 / 2)

/-- R133: `YPP2RGB` is the document's inverse map, unclamped; for every `NUM` left to right, and under `NUM_Q` exactly. -/
def Obligations.Ypp2rgbCompletes : Prop :=
  (∀ (pw : Widths) (p : Ports), p.op = 0x0A → decode pw p = .ok (.ypp2rgb p.n0 p.n1 p.n2)) ∧
  ∀ (s : State) (y pb pr : F), s.halted = false →
    (∀ N, N = numOf s.cfg → exec (.ypp2rgb y pb pr) s = .next (completed s
      { m0 := some (N.add y (N.mul (N.flit ⟨1402, 3⟩) pr)),
        m1 := some (N.sub (N.sub y (N.mul (N.flit ⟨344136, 6⟩) pb)) (N.mul (N.flit ⟨714136, 6⟩) pr)),
        m2 := some (N.add y (N.mul (N.flit ⟨1772, 3⟩) pb)) })) ∧
    (∀ ties, s.cfg.num = .exactRational ties → exec (.ypp2rgb y pb pr) s = .next (completed s
      { m0 := some (y + 1402 / 1000 * pr),
        m1 := some (y - 344136 / 1000000 * pb - 714136 / 1000000 * pr),
        m2 := some (y + 1772 / 1000 * pb) }))

/-- R134: `CLAMP01` clamps each lane: below 0 to 0, above 1 to 1, else unchanged, a value that fails both tests included;
under `NUM_Q` it is the clamp to [0,1]. Applying it twice is applying it once for every `NUM` that does not order 1 below 0,
`NUM_Q` among them; of a `NUM` that does, R7 assumes nothing. -/
def Obligations.Clamp01Completes : Prop :=
  (∀ (pw : Widths) (p : Ports), p.op = 0x0B → decode pw p = .ok (.clamp01 p.n0 p.n1 p.n2)) ∧
  (∀ (N : NumOps) (t : Triple), N.lt (N.fint 1) (N.fint 0) = false → N.gt (N.fint 0) (N.fint 1) = false →
    clamp01 N (clamp01 N t) = clamp01 N t) ∧
  (∀ (ties : RoundTies) (t : Triple), clamp01 (numQ ties) (clamp01 (numQ ties) t) = clamp01 (numQ ties) t) ∧
  ∀ (s : State) (n0 n1 n2 : F), s.halted = false →
    (∀ N, N = numOf s.cfg → ∃ c : F → F, exec (.clamp01 n0 n1 n2) s =
        .next (completed s { m0 := some (c n0), m1 := some (c n1), m2 := some (c n2) }) ∧
      ∀ x, (N.lt x (N.fint 0) = true → c x = N.fint 0) ∧
        (N.lt x (N.fint 0) = false → N.gt x (N.fint 1) = true → c x = N.fint 1) ∧
        (N.lt x (N.fint 0) = false → N.gt x (N.fint 1) = false → c x = x)) ∧
    (∀ ties, s.cfg.num = .exactRational ties → exec (.clamp01 n0 n1 n2) s = .next (completed s
      { m0 := some (max 0 (min 1 n0)), m1 := some (max 0 (min 1 n1)), m2 := some (max 0 (min 1 n2)) }))

/-- R135: `DENORM` truncates each product toward zero, for every `NUM`; a lane with no integer image, or a negative one, or
one above 2^CW − 1 is a DomainFault. -/
def Obligations.DenormCompletes : Prop :=
  (∀ (pw : Widths) (p : Ports), p.op = 0x0C → decode pw p = .ok (.denorm p.n0 p.n1 p.n2 (p.den % 2 ^ pw.cw))) ∧
  ∀ (s : State) (n0 n1 n2 : F) (den : Nat) (N : NumOps), s.halted = false → N = numOf s.cfg →
    (∀ t0 t1 t2 : Int, N.ftrunc (N.mul n0 (N.fint den)) = some t0 → N.ftrunc (N.mul n1 (N.fint den)) = some t1 →
      N.ftrunc (N.mul n2 (N.fint den)) = some t2 → (∀ t ∈ [t0, t1, t2], 0 ≤ t ∧ t ≤ 2 ^ s.cfg.widths.cw - 1) →
      exec (.denorm n0 n1 n2 den) s = .next (completed s
        { px0 := some ⟨t0.toNat, t1.toNat, t2.toNat⟩ })) ∧
    ((∃ x ∈ [n0, n1, n2], ∀ t, N.ftrunc (N.mul x (N.fint den)) = some t → t < 0 ∨ 2 ^ s.cfg.widths.cw - 1 < t) →
      exec (.denorm n0 n1 n2 den) s = .next (faulted s .domainFault))

/-- R135 under `NUM_Q`: the fractional part is discarded, toward zero; `DENORM` undoes `NORM` exactly. -/
def Obligations.DenormTruncatesAndUndoesNorm : Prop :=
  ∀ (s : State) (ties : RoundTies), s.halted = false → s.cfg.num = .exactRational ties →
    (∀ (n0 n1 n2 : F) (den : Nat), (∀ x ∈ [n0, n1, n2], -1 < x * den ∧ x * den < 2 ^ s.cfg.widths.cw) →
      exec (.denorm n0 n1 n2 den) s = .next (completed s
        { px0 := some ⟨(⌊n0 * den⌋).toNat, (⌊n1 * den⌋).toNat, (⌊n2 * den⌋).toNat⟩ })) ∧
    (∀ (p : Pixel) (den : Nat), p.fits s.cfg.widths = true → den ≠ 0 →
      exec (.denorm ((p.r : Rat) / den) ((p.g : Rat) / den) ((p.b : Rat) / den) den) s =
        .next (completed s { px0 := some p }))

/-! ### BlockTransform -/

/-- R151: `BTFWD` completes, for every `NUM` with the sums left to right and one division by 4, and under `NUM_Q` exactly. -/
def Obligations.BtfwdCompletes : Prop :=
  (∀ (pw : Widths) (p : Ports), p.op = 0x10 → decode pw p = .ok (.btfwd p.n0 p.n1 p.n2 p.n3)) ∧
  ∀ (s : State) (y0 y1 y2 y3 : F), s.halted = false →
    (∀ N, N = numOf s.cfg → exec (.btfwd y0 y1 y2 y3) s = .next (completed s
      { m0 := some (N.div (N.add (N.add (N.add y0 y1) y2) y3) (N.fint 4)),
        m1 := some (N.div (N.sub (N.sub (N.add y3 y2) y1) y0) (N.fint 4)),
        m2 := some (N.div (N.sub (N.add (N.sub y3 y2) y1) y0) (N.fint 4)),
        m3 := some (N.div (N.add (N.sub (N.sub y3 y2) y1) y0) (N.fint 4)) })) ∧
    (∀ ties, s.cfg.num = .exactRational ties → exec (.btfwd y0 y1 y2 y3) s = .next (completed s
      { m0 := some ((y0 + y1 + y2 + y3) / 4), m1 := some ((y3 + y2 - y1 - y0) / 4),
        m2 := some ((y3 - y2 + y1 - y0) / 4), m3 := some ((y3 - y2 - y1 + y0) / 4) }))

/-- R152: `BTINV` completes, for every `NUM` left to right with no scaling, and under `NUM_Q` exactly. -/
def Obligations.BtinvCompletes : Prop :=
  (∀ (pw : Widths) (p : Ports), p.op = 0x11 → decode pw p = .ok (.btinv p.n0 p.n1 p.n2 p.n3)) ∧
  ∀ (s : State) (a b c d : F), s.halted = false →
    (∀ N, N = numOf s.cfg → exec (.btinv a b c d) s = .next (completed s
      { m0 := some (N.add (N.sub (N.sub a b) c) d), m1 := some (N.sub (N.add (N.sub a b) c) d),
        m2 := some (N.sub (N.sub (N.add a b) c) d), m3 := some (N.add (N.add (N.add a b) c) d) })) ∧
    (∀ ties, s.cfg.num = .exactRational ties → exec (.btinv a b c d) s = .next (completed s
      { m0 := some (a - b - c + d), m1 := some (a - b + c - d),
        m2 := some (a + b - c - d), m3 := some (a + b + c + d) }))

/-- R153 under `NUM_Q`: forward and inverse transform undo each other, in both directions. -/
def Obligations.BlockTransformsAreInverses : Prop :=
  ∀ (ties : RoundTies) (k : Quad),
    inverseTransform (numQ ties) (forwardTransform (numQ ties) k) = k ∧
    forwardTransform (numQ ties) (inverseTransform (numQ ties) k) = k

/-! ### Quantizer -/

/-- R161: `QAVG` answers the rounded product as a 64-bit two's complement pattern, for every `NUM`; it does not saturate; a
product with no 64-bit integer image is a DomainFault. -/
def Obligations.QavgCompletes : Prop :=
  (∀ (pw : Widths) (p : Ports), p.op = 0x14 → decode pw p = .ok (.qavg p.n0)) ∧
  ∀ (s : State) (a01 : F) (N : NumOps), s.halted = false → N = numOf s.cfg →
    (∀ z : Int, N.fround (N.mul a01 (N.fint 63)) = some z → -(2 ^ 63) ≤ z → z ≤ 2 ^ 63 - 1 →
      ∃ v : Word, exec (.qavg a01) s = .next (completed s { value := some v }) ∧ v.toInt = z) ∧
    ((∀ z : Int, N.fround (N.mul a01 (N.fint 63)) = some z → z < -(2 ^ 63) ∨ 2 ^ 63 - 1 < z) →
      exec (.qavg a01) s = .next (faulted s .domainFault))

/-- R161 under `NUM_Q`: the answer is an integer nearest to `63 · a01`; with the default `ROUND_TIES` a tie goes away from
zero; for `a01` in [0,1] it is in 0..63; and `QAVG` undoes `DQAVG`. -/
def Obligations.QavgRoundsToNearest : Prop :=
  ∀ (s : State) (ties : RoundTies), s.halted = false → s.cfg.num = .exactRational ties →
    (∀ a01 : Rat, |a01| ≤ 2 ^ 56 →
      ∃ v : Word, exec (.qavg a01) s = .next (completed s { value := some v }) ∧
        |a01 * 63 - v.toInt| ≤ 1 / 2 ∧
        (ties = .halfAwayFromZero → |a01 * 63 - v.toInt| = 1 / 2 → |a01 * 63| < |(v.toInt : Rat)|) ∧
        (0 ≤ a01 → a01 ≤ 1 → 0 ≤ v.toInt ∧ v.toInt ≤ 63)) ∧
    (∀ q : Nat, q ≤ 63 →
      exec (.qavg (dequantizeAverage (numOf s.cfg) q)) s = .next (completed s { value := some (BitVec.ofNat 64 q) }))

/-- R162: `DQAVG` answers `q / 63`, for every `NUM` and exactly under `NUM_Q`. -/
def Obligations.DqavgCompletes : Prop :=
  (∀ (pw : Widths) (p : Ports), p.op = 0x15 → decode pw p = .ok (.dqavg p.q.toNat)) ∧
  ∀ (s : State) (q : Nat), s.halted = false →
    (∀ N, N = numOf s.cfg → exec (.dqavg q) s = .next (completed s { m0 := some (N.div (N.fint q) (N.fint 63)) })) ∧
    (∀ ties, s.cfg.num = .exactRational ties → exec (.dqavg q) s = .next (completed s { m0 := some ((q : Rat) / 63) }))

/-- R163 for every `NUM`: the two inclusive saturation tests first, then the rounded product; a DomainFault only without a
rounded image. Under a free `NUM` a rounded product may be outside 64 bits; that its pattern is then the residue modulo
2^64 is the model's reading (DEDUCED, notes/assumptions/15.md). -/
def Obligations.QdetCompletes : Prop :=
  (∀ (pw : Widths) (p : Ports), p.op = 0x16 → decode pw p = .ok (.qdet p.n0)) ∧
  ∀ (s : State) (x : F) (N : NumOps), s.halted = false → N = numOf s.cfg →
    (N.le x (N.flit ⟨-3, 1⟩) = true →
      exec (.qdet x) s = .next (completed s { value := some 0xFFFFFFFFFFFFFFF1 })) ∧
    (N.le x (N.flit ⟨-3, 1⟩) = false → N.ge x (N.flit ⟨3, 1⟩) = true →
      exec (.qdet x) s = .next (completed s { value := some 15 })) ∧
    (N.le x (N.flit ⟨-3, 1⟩) = false → N.ge x (N.flit ⟨3, 1⟩) = false →
      exec (.qdet x) s = .next (match N.fround (N.mul x (N.fint 50)) with
        | some z => completed s { value := some (BitVec.ofInt 64 z) }
        | none => faulted s .domainFault))

/-- R163 under `NUM_Q`: "every input, however large, maps into −15..15"; the map is monotone; within the bounds the answer is an
integer nearest to `50 · x`. -/
def Obligations.QdetSaturatesAndIsMonotone : Prop :=
  ∀ (s : State) (ties : RoundTies), s.halted = false → s.cfg.num = .exactRational ties →
    ∃ f : Rat → Word, (∀ x, exec (.qdet x) s = .next (completed s { value := some (f x) })) ∧
      (∀ x, -15 ≤ (f x).toInt ∧ (f x).toInt ≤ 15) ∧
      (∀ x y, x ≤ y → (f x).toInt ≤ (f y).toInt) ∧
      (∀ x, |x| ≤ 3 / 10 → |x * 50 - (f x).toInt| ≤ 1 / 2)

/-- R164: `DQDET` answers `q / 50` on the whole signed range, for every `NUM` and exactly under `NUM_Q`. -/
def Obligations.DqdetCompletes : Prop :=
  (∀ (pw : Widths) (p : Ports), p.op = 0x17 → decode pw p = .ok (.dqdet p.q.toInt)) ∧
  ∀ (s : State) (q : Int), s.halted = false →
    (∀ N, N = numOf s.cfg → exec (.dqdet q) s = .next (completed s { m0 := some (N.div (N.fint q) (N.fint 50)) })) ∧
    (∀ ties, s.cfg.num = .exactRational ties → exec (.dqdet q) s = .next (completed s { m0 := some ((q : Rat) / 50) }))

/-- R164 under `NUM_Q`: `QDET(DQDET(q)) = q` for `q` in −15..15, and `±15` outside. -/
def Obligations.QdetUndoesDqdet : Prop :=
  ∀ (s : State) (ties : RoundTies) (q : Int), s.halted = false → s.cfg.num = .exactRational ties →
    exec (.qdet (dequantizeDetail (numOf s.cfg) q)) s =
      .next (completed s { value := some (BitVec.ofInt 64 (max (-15) (min 15 q))) })

/-- R165, R166: `CIDX` and `CVAL` answer what the configured table says of the operand, and nothing else. -/
def Obligations.ChromaTableCompletes : Prop :=
  (∀ (pw : Widths) (p : Ports), p.op = 0x18 → decode pw p = .ok (.cidx p.n0)) ∧
  (∀ (pw : Widths) (p : Ports), p.op = 0x19 → decode pw p = .ok (.cval p.idx)) ∧
  ∀ s : State, s.halted = false →
    (∀ x : F, exec (.cidx x) s = .next (completed s { idx := some ((chromaOfConfig s.cfg).indexOf x) })) ∧
    (∀ i : BitVec 4, exec (.cval i) s = .next (completed s { m0 := some ((chromaOfConfig s.cfg).chromaOf i) }))

/-! ### BlockCodec -/

/-- R181 with R80, R201, R204, R205, for every `NUM`: a zero denominator is a DomainFault; with a denominator, a quantizer without
an answer is a DomainFault, whether or not another field would overflow; with the four quantized values, `BLKENC` answers
the six fields in the PackedBlock's layout when they fit, and halts with Overflow when one does not. `t` is a pixel's
(y, pb, pr). -/
def Obligations.BlkencPacksTheSixFields : Prop :=
  (∀ (pw : Widths) (p : Ports), p.op = 0x1C → decode pw p =
    .ok (.blkenc (p.px0.carried pw) (p.px1.carried pw) (p.px2.carried pw) (p.px3.carried pw) (p.den % 2 ^ pw.cw))) ∧
  (∀ (s : State) (p0 p1 p2 p3 : Pixel), s.halted = false →
    exec (.blkenc p0 p1 p2 p3 0) s = .next (faulted s .domainFault)) ∧
  ∀ (s : State) (p0 p1 p2 p3 : Pixel) (den : Nat) (N : NumOps) (C : Chroma) (t : Pixel → Triple) (k : Quad),
    s.halted = false → N = numOf s.cfg → C = chromaOfConfig s.cfg → den ≠ 0 →
    (∀ p, t p = toLumaChroma N ⟨N.div (N.fint p.r) (N.fint den), N.div (N.fint p.g) (N.fint den),
      N.div (N.fint p.b) (N.fint den)⟩) →
    k = forwardTransform N ⟨(t p0).x0, (t p1).x0, (t p2).x0, (t p3).x0⟩ →
    (quantizeAverage N k.x0 = raiseDomainFault ∨ quantizeDetail N k.x1 = raiseDomainFault ∨
        quantizeDetail N k.x2 = raiseDomainFault ∨ quantizeDetail N k.x3 = raiseDomainFault →
      exec (.blkenc p0 p1 p2 p3 den) s = .next (faulted s .domainFault)) ∧
    (∀ qa qb qc qd : Word, quantizeAverage N k.x0 = .ok qa → quantizeDetail N k.x1 = .ok qb →
      quantizeDetail N k.x2 = .ok qc → quantizeDetail N k.x3 = .ok qd →
      (fitsU qa 6 = true → fitsS qb 6 = true → fitsS qc 6 = true → fitsS qd 6 = true →
        exec (.blkenc p0 p1 p2 p3 den) s = .next (completed s
          { packed := some (qa.setWidth 6 ++ qb.setWidth 6 ++ qc.setWidth 6 ++ qd.setWidth 6 ++
            C.indexOf (N.div (N.add (N.add (N.add (t p0).x1 (t p1).x1) (t p2).x1) (t p3).x1) (N.fint 4)) ++
            C.indexOf (N.div (N.add (N.add (N.add (t p0).x2 (t p1).x2) (t p2).x2) (t p3).x2) (N.fint 4))) })) ∧
      (¬ (fitsU qa 6 = true ∧ fitsS qb 6 = true ∧ fitsS qc 6 = true ∧ fitsS qd 6 = true) →
        exec (.blkenc p0 p1 p2 p3 den) s = .next (faulted s .overflow)))

/-- R167, R181, R183 under `NUM_Q`, for every chroma table: in normal operation `BLKENC` completes, and unpacking its answer
gives back the six fields the quantizers made, each in its own range. -/
def Obligations.BlkencNeverFailsInNormalOperation : Prop :=
  ∀ (s : State) (ties : RoundTies) (p0 p1 p2 p3 : Pixel) (den : Nat),
    s.halted = false → s.cfg.num = .exactRational ties → den ≠ 0 →
    normalPixel den p0 → normalPixel den p1 → normalPixel den p2 → normalPixel den p3 →
    ∃ (f : PackedFields) (packed : BitVec 32),
      encodeFields (numOf s.cfg) (chromaOfConfig s.cfg) p0 p1 p2 p3 den = .ok f ∧
      exec (.blkenc p0 p1 p2 p3 den) s = .next (completed s { packed := some packed }) ∧
      unpack6 (packed.setWidth 64) = .ok f ∧
      f.a.toNat ≤ 63 ∧ (∀ v ∈ [f.b, f.c, f.d], -15 ≤ v.toInt ∧ v.toInt ≤ 15) ∧ f.pb.toNat ≤ 15 ∧ f.pr.toNat ≤ 15

/-- R183 for every `NUM` and every chroma table: whatever `BLKENC` returns with status `OK`, unpacking it returns exactly the six
fields of that encode. -/
def Obligations.UnpackReturnsTheEncodedFields : Prop :=
  ∀ (s : State) (p0 p1 p2 p3 : Pixel) (den : Nat) (packed : BitVec 32), s.halted = false →
    exec (.blkenc p0 p1 p2 p3 den) s = .next (completed s { packed := some packed }) →
    ∃ f : PackedFields, encodeFields (numOf s.cfg) (chromaOfConfig s.cfg) p0 p1 p2 p3 den = .ok f ∧
      unpack6 (packed.setWidth 64) = .ok f

/-- R181, corner case under `NUM_Q`: a block of four equal gray pixels has no detail and the table's index of 0 twice. -/
def Obligations.BlkencOfAGrayBlock : Prop :=
  ∀ (s : State) (ties : RoundTies) (g den : Nat), s.halted = false → s.cfg.num = .exactRational ties → den ≠ 0 →
    g ≤ den →
    exec (.blkenc ⟨g, g, g⟩ ⟨g, g, g⟩ ⟨g, g, g⟩ ⟨g, g, g⟩ den) s = .next (completed s
      { packed := some (BitVec.ofInt 6 (froundQ ties ((g : Rat) / den * 63)) ++ (0 : BitVec 18) ++
        (chromaOfConfig s.cfg).indexOf 0 ++ (chromaOfConfig s.cfg).indexOf 0) })

/-- R182 with R204, for every `NUM`: the fields at their places, dequantized, transformed, then each position's pixel; if the four
positions have their pixels `BLKDEC` answers them and `den = 255`, and if one has none, because a lane's product has no
integer image on its port, it is a DomainFault. -/
def Obligations.BlkdecComputesEachPixel : Prop :=
  (∀ (pw : Widths) (p : Ports), p.op = 0x1D → decode pw p = .ok (.blkdec p.packed)) ∧
  ∀ (s : State) (packed : BitVec 32) (N : NumOps) (C : Chroma) (y : Quad) (pixel : F → Result Pixel),
    s.halted = false → N = numOf s.cfg → C = chromaOfConfig s.cfg →
    y = inverseTransform N ⟨dequantizeAverage N (packed.extractLsb' 26 6).toNat,
      dequantizeDetail N (packed.extractLsb' 20 6).toInt, dequantizeDetail N (packed.extractLsb' 14 6).toInt,
      dequantizeDetail N (packed.extractLsb' 8 6).toInt⟩ →
    (∀ yi, pixel yi = denormalize N s.cfg.widths.cw (clamp01 N (toRgb N
      ⟨yi, C.chromaOf (packed.extractLsb' 4 4), C.chromaOf (packed.extractLsb' 0 4)⟩)) 255) →
    exec (.blkdec packed) s = .next
      (match pixel y.x0, pixel y.x1, pixel y.x2, pixel y.x3 with
        | .ok o0, .ok o1, .ok o2, .ok o3 =>
          completed s { px0 := some o0, px1 := some o1, px2 := some o2, px3 := some o3, den := some 255 }
        | _, _, _, _ => faulted s .domainFault)

/-- R83, R182 under `NUM_Q`, for every chroma table and every legal port width: every 32-bit pattern decodes, to components in
0..255 and `den = 255`. -/
def Obligations.BlkdecDecodesEveryWord : Prop :=
  ∀ (s : State) (ties : RoundTies) (packed : BitVec 32), s.halted = false → s.cfg.num = .exactRational ties →
    s.cfg.widths.legal = true →
    ∃ o0 o1 o2 o3 : Pixel, exec (.blkdec packed) s = .next (completed s
        { px0 := some o0, px1 := some o1, px2 := some o2, px3 := some o3, den := some 255 }) ∧
      ∀ o ∈ [o0, o1, o2, o3], o.r ≤ 255 ∧ o.g ≤ 255 ∧ o.b ≤ 255

/-! ### Invariants and runs -/

/-- The state after reset is legal. -/
def Obligations.ResetStateIsLegal : Prop := Legal State.reset

/-- R21, R25, R27, R45, R74, R207, R209: every step keeps a legal state legal, the values on the ports within the ports' widths
included; and in a legal state a run that contains a `HALTED` response is the run of a halted block. -/
def Obligations.StepsKeepTheStateLegal : Prop :=
  (∀ s t : State, Legal s → step s = .next t → Legal t) ∧
  (∀ s : State, Legal s → GoneWrong s → s.halted = true)

/-- R20, R45, R209, R242: over any stream of commands the responses come in order, each the one a block just reset gives to that
command, until the first fatal fault; from then on they are refusals. -/
def Obligations.RunsAnswerCommandsInOrder : Prop :=
  ∀ (s : State) (cmds : List Ports) (rest : List HostEvent), s.inputs = cmds.map .command ++ rest →
    (advanceN cmds.length s).responses = s.responses ++ expectedResponses s.cfg s.halted cmds ∧
    (advanceN cmds.length s).inputs = rest ∧ (advanceN cmds.length s).cfg = s.cfg

/-- R47: under any schedule of turns each block's state is that of its own number of turns on its own start state; so a block
that gets one turn for each command of its own input answers them as it would alone, whatever the others do. -/
def Obligations.InstancesShareNothing : Prop :=
  ∀ (schedule : List Nat) (blocks : List State) (j : Nat) (s : State), blocks[j]? = some s →
    (runSchedule schedule blocks)[j]? = some (advanceN (schedule.count j) s) ∧
    ∀ (cmds : List Ports) (rest : List HostEvent), s.inputs = cmds.map .command ++ rest →
      schedule.count j = cmds.length →
      ∃ t : State, (runSchedule schedule blocks)[j]? = some t ∧
        t.responses = s.responses ++ expectedResponses s.cfg s.halted cmds ∧ t.inputs = rest

/-! ### The host around the block -/

/-- R54, R56: a packed word is its four bytes, most significant first; the bytes of any packed words are read back as those words,
and what follows them is left. -/
def Obligations.WordsSurviveSerialization : Prop :=
  (∀ p : BitVec 32, (wordBytes p).map BitVec.toNat =
    [p.toNat / 2 ^ 24, p.toNat / 2 ^ 16 % 2 ^ 8, p.toNat / 2 ^ 8 % 2 ^ 8, p.toNat % 2 ^ 8]) ∧
  ∀ (ps : List (BitVec 32)) (rest : List Byte), readWords ps.length (ps.flatMap wordBytes ++ rest) = .ok (ps, rest)

/-- R53, R55, R221, R222: the header written is the header read; zero dimensions, a wrong tag, a minus sign before either number
and a missing newline are the errors the taxonomy names. That no nonzero dimension is too large is the model's choice
(N15 leaves it open; notes/assumptions/12.md). -/
def Obligations.HeadersAreReadBack : Prop :=
  ∀ (sp : StreamParams),
    (∀ (w h : Nat) (body : List Byte), w ≠ 0 → h ≠ 0 →
      parseHeader sp (streamHeader sp w h ++ body) = .ok (w, h, body)) ∧
    (∀ (w h : Nat) (body : List Byte), w = 0 ∨ h = 0 →
      parseHeader sp (streamHeader sp w h ++ body) = .error .invalidDimensions) ∧
    (∀ bs : List Byte, ¬ (sp.tag ++ [0x20]) <+: bs → parseHeader sp bs = .error .malformedHeader) ∧
    (∀ bs : List Byte, parseHeader sp (sp.tag ++ [0x20, 0x2D] ++ bs) = .error .malformedHeader) ∧
    (∀ (w : Nat) (bs : List Byte),
      parseHeader sp (sp.tag ++ [0x20] ++ decimalAscii w ++ [0x20, 0x2D] ++ bs) = .error .malformedHeader) ∧
    (∀ (w h : Nat) (bs : List Byte), (∀ b ∈ bs.head?, b ≠ 0x0A ∧ isDigit b = false) →
      parseHeader sp (sp.tag ++ [0x20] ++ decimalAscii w ++ [0x20] ++ decimalAscii h ++ bs) = .error .malformedHeader)

/-- R223: a body with fewer than 4N bytes is TruncatedStream, with no raster; a body with all of them is not. -/
def Obligations.ShortBodiesAreTruncated : Prop :=
  ∀ (sp : StreamParams) (cfg : Config) (bs body : List Byte) (w h : Nat), parseHeader sp bs = .ok (w, h, body) →
    (body.length < 4 * (w * h) → decodeStream sp cfg bs = .error .truncatedStream) ∧
    (4 * (w * h) ≤ body.length → decodeStream sp cfg bs ≠ .error .truncatedStream)

/-- R50: an odd trailing row or column has no influence on the stream: it is the stream of the cropped raster. -/
def Obligations.OddTrailingLinesAreDropped : Prop :=
  ∀ (sp : StreamParams) (cfg : Config) (r : Raster), encodeStream sp cfg r = encodeStream sp cfg (crop r)

/-- R50, R57, R58 under `NUM_Q`, for every chroma table, every tag and every legal port width: a raster of normal pixels whose
denominator fits its port encodes, its stream decodes, and the result has the effective size and denominator 255. That no
size is too large and that a pixel missing from the raster's list reads as black are the model's choices
(notes/assumptions/12.md). -/
def Obligations.EncodeThenDecodeSucceeds : Prop :=
  ∀ (sp : StreamParams) (cfg : Config) (ties : RoundTies) (r : Raster), cfg.num = .exactRational ties →
    cfg.widths.legal = true → r.den ≠ 0 → r.den < 2 ^ cfg.widths.cw → (∀ p ∈ r.pixels, normalPixel r.den p) →
    2 ≤ r.width → 2 ≤ r.height →
    ∃ (bs : List Byte) (r' : Raster), encodeStream sp cfg r = .ok bs ∧ decodeStream sp cfg bs = .ok r' ∧
      r'.width = r.width - r.width % 2 ∧ r'.height = r.height - r.height % 2 ∧ r'.den = 255 ∧
      r'.pixels.length = r'.width * r'.height
end

