-- ==== Sys2Proof/Laws/State.lean ====
section
/-! SUPPORT. One lemma per field per update of the state, so that no later proof unfolds a record update. -/

namespace Sys2Proof.Machine

variable (s : State) (st : Status) (p : Results) (k : FatalKind)

@[simp] theorem respond_halted : (respond s st p).halted = s.halted := rfl
@[simp] theorem respond_cause : (respond s st p).cause = s.cause := rfl
@[simp] theorem respond_cfg : (respond s st p).cfg = s.cfg := rfl
@[simp] theorem respond_inputs : (respond s st p).inputs = s.inputs := rfl
@[simp] theorem respond_responses :
    (respond s st p).responses = s.responses ++ [{ status := st, ports := p }] := rfl

@[simp] theorem enterFatal_halted : (enterFatal s k).halted = true := rfl
@[simp] theorem enterFatal_cause : (enterFatal s k).cause = fatalCause k := rfl
@[simp] theorem enterFatal_cfg : (enterFatal s k).cfg = s.cfg := rfl
@[simp] theorem enterFatal_inputs : (enterFatal s k).inputs = s.inputs := rfl
@[simp] theorem enterFatal_responses :
    (enterFatal s k).responses = s.responses ++ [{ status := fatalStatus k, ports := {} }] := rfl

@[simp] theorem refuseHalted_halted : (refuseHalted s).halted = s.halted := rfl
@[simp] theorem refuseHalted_cause : (refuseHalted s).cause = s.cause := rfl
@[simp] theorem refuseHalted_cfg : (refuseHalted s).cfg = s.cfg := rfl
@[simp] theorem refuseHalted_inputs : (refuseHalted s).inputs = s.inputs := rfl
@[simp] theorem refuseHalted_responses :
    (refuseHalted s).responses = s.responses ++ [Response.refusal] := rfl

@[simp] theorem resetBlock_halted : (resetBlock s).halted = false := rfl
@[simp] theorem resetBlock_cause : (resetBlock s).cause = .none := rfl
@[simp] theorem resetBlock_cfg : (resetBlock s).cfg = s.cfg := rfl
@[simp] theorem resetBlock_inputs : (resetBlock s).inputs = s.inputs := rfl
@[simp] theorem resetBlock_responses : (resetBlock s).responses = [] := rfl

@[simp] theorem reset_halted : State.reset.halted = false := rfl
@[simp] theorem reset_cause : State.reset.cause = .none := rfl
@[simp] theorem reset_inputs : State.reset.inputs = [] := rfl
@[simp] theorem reset_responses : State.reset.responses = [] := rfl

@[simp] theorem freshBlock_halted (c : Config) (es : List HostEvent) : (freshBlock c es).halted = false := rfl
@[simp] theorem freshBlock_cause (c : Config) (es : List HostEvent) : (freshBlock c es).cause = .none := rfl
@[simp] theorem freshBlock_cfg (c : Config) (es : List HostEvent) : (freshBlock c es).cfg = c := rfl
@[simp] theorem freshBlock_inputs (c : Config) (es : List HostEvent) : (freshBlock c es).inputs = es := rfl
@[simp] theorem freshBlock_responses (c : Config) (es : List HostEvent) : (freshBlock c es).responses = [] := rfl

end Sys2Proof.Machine
end

