-- ==== Sys2Proof/Laws/Ops.lean ====
section
/-! SUPPORT. What each shared operation can do, said once (spec R101, R204 to R209). -/

namespace Sys2Proof.Machine

/-- Everything the end of a command can do. -/
theorem finish_cases (s : State) (r : Result Results) :
    (s.halted = true ∧ finish s r = refuseHalted s) ∨
    (s.halted = false ∧ ((∃ ports, r = .ok ports ∧ finish s r = respond s .ok ports) ∨
      (r = .error .overflow ∧ finish s r = respond s .overflow {}) ∨
      (∃ k, r = .error (.fatal k) ∧ finish s r = enterFatal s k))) := by
  cases h : s.halted with
  | true => exact .inl ⟨rfl, by simp [finish, h]⟩
  | false =>
    refine .inr ⟨rfl, ?_⟩
    match r with
    | .ok ports => exact .inl ⟨ports, rfl, by simp [finish, h]⟩
    | .error .overflow => exact .inr (.inl ⟨rfl, by simp [finish, h]⟩)
    | .error (.fatal k) => exact .inr (.inr ⟨k, rfl, by simp [finish, h]⟩)

theorem finish_halted {s : State} (h : s.halted = true) (r : Result Results) : finish s r = refuseHalted s := by
  simp [finish, h]

@[simp] theorem finish_ok {s : State} (h : s.halted = false) (ports : Results) :
    finish s (.ok ports) = respond s .ok ports := by simp [finish, h]

@[simp] theorem finish_overflow {s : State} (h : s.halted = false) :
    finish s (.error .overflow) = respond s .overflow {} := by simp [finish, h]

@[simp] theorem finish_fatal {s : State} (h : s.halted = false) (k : FatalKind) :
    finish s (.error (.fatal k)) = enterFatal s k := by simp [finish, h]

@[simp] theorem finish_cfg (s : State) (r : Result Results) : (finish s r).cfg = s.cfg := by
  obtain ⟨-, h⟩ | ⟨-, ⟨p, -, h⟩ | ⟨-, h⟩ | ⟨k, -, h⟩⟩ := finish_cases s r <;> simp [h]

@[simp] theorem finish_inputs (s : State) (r : Result Results) : (finish s r).inputs = s.inputs := by
  obtain ⟨-, h⟩ | ⟨-, ⟨p, -, h⟩ | ⟨-, h⟩ | ⟨k, -, h⟩⟩ := finish_cases s r <;> simp [h]

theorem answer_eq (s : State) (r : Result Results) : answer s r = .next (finish s r) := rfl

/-- The number a fatal fault reports and the number it latches are the same (R77). -/
theorem fatal_codes_agree (k : FatalKind) : statusCode (fatalStatus k) = causeCode (fatalCause k) := by
  cases k <;> rfl

theorem fatalCause_ne_none (k : FatalKind) : fatalCause k ≠ .none := by cases k <;> simp [fatalCause]

theorem fatalStatus_ne_ok (k : FatalKind) : fatalStatus k ≠ .ok := by cases k <;> simp [fatalStatus]

@[simp] theorem driven_nothing : Results.driven {} = [] := rfl

@[simp] theorem checkDesc_legal {w l : Nat} (h : w + l ≤ 64) : checkDesc w l = .ok () := by
  have h1 : ¬ (64 < w ∨ 64 < w + l) := by omega
  simp [checkDesc, h1]

theorem checkDesc_malformed {w l : Nat} (h : 64 < w + l) : checkDesc w l = raiseContractViolation := by
  simp [checkDesc, h]

/-- Everything `onPort` can do. -/
theorem onPort_cases (z : Option Int) (lo hi : Int) :
    (∃ k, z = some k ∧ lo ≤ k ∧ k ≤ hi ∧ onPort z lo hi = .ok k) ∨
    ((z = none ∨ ∃ k, z = some k ∧ (k < lo ∨ hi < k)) ∧ onPort z lo hi = raiseDomainFault) := by
  match z with
  | none => exact .inr ⟨.inl rfl, rfl⟩
  | some k =>
    by_cases h : k < lo ∨ hi < k
    · exact .inr ⟨.inr ⟨k, rfl, h⟩, by simp [onPort, h]⟩
    · exact .inl ⟨k, rfl, by omega, by omega, by simp [onPort, h]⟩

theorem onPort_some {k lo hi : Int} (h1 : lo ≤ k) (h2 : k ≤ hi) : onPort (some k) lo hi = .ok k := by
  have h : ¬ (k < lo ∨ hi < k) := by omega
  simp [onPort, h]

@[simp] theorem overflowIsFatal_ok {α : Type} (x : α) : overflowIsFatal (.ok x : Result α) = .ok x := rfl

@[simp] theorem overflowIsFatal_overflow {α : Type} :
    overflowIsFatal (.error .overflow : Result α) = .error (.fatal .overflow) := rfl

@[simp] theorem overflowIsFatal_fatal {α : Type} (k : FatalKind) :
    overflowIsFatal (.error (.fatal k) : Result α) = .error (.fatal k) := rfl

end Sys2Proof.Machine
end

