-- ==== Sys2Proof/Laws/BitField.lean ====
section
/-! SUPPORT. The shifts, masks and fields of BitField, bit by bit and as integers (spec R102, R105 to R110). -/

namespace Sys2Proof.Machine

theorem s64_eq_toInt (x : Word) : s64 x = x.toInt := by
  rw [BitVec.toInt_eq_msb_cond, BitVec.msb_eq_getLsbD_last]
  simp [s64, u64]

theorem shl64_eq (x : Word) (n : Nat) : shl64 x n = x <<< n := by
  unfold shl64 u64
  split
  · exact (BitVec.shiftLeft_eq_zero ‹_›).symm
  · apply BitVec.eq_of_toNat_eq
    simp [BitVec.toNat_shiftLeft, Nat.shiftLeft_eq]

theorem shr64_eq (x : Word) (n : Nat) : shr64 x n = x >>> n := by
  unfold shr64 u64
  apply BitVec.eq_of_toNat_eq
  have hx : x.toNat < 2 ^ 64 := x.isLt
  split
  · rename_i h
    have : x.toNat < 2 ^ n := lt_of_lt_of_le hx (Nat.pow_le_pow_right (by norm_num) h)
    simp [BitVec.toNat_ushiftRight, Nat.shiftRight_eq_div_pow, Nat.div_eq_of_lt this]
  · have : x.toNat / 2 ^ n < 2 ^ 64 := lt_of_le_of_lt (Nat.div_le_self _ _) hx
    rw [BitVec.toNat_ofNat, Nat.mod_eq_of_lt this, BitVec.toNat_ushiftRight, Nat.shiftRight_eq_div_pow]

@[simp] theorem getLsbD_mask (w i : Nat) : (mask w).getLsbD i = (decide (i < 64) && decide (i < w)) := by
  simp [mask, BitVec.getLsbD_ofNat, Nat.testBit_two_pow_sub_one]

@[simp] theorem getElem_mask (w i : Nat) (h : i < 64) : (mask w)[i] = decide (i < w) := by
  rw [← BitVec.getLsbD_eq_getElem, getLsbD_mask]
  simp [h]

/-- A field, bit by bit. -/
@[simp] theorem getLsbD_field (W : Word) (w l i : Nat) :
    (field W w l).getLsbD i = (decide (i < w) && W.getLsbD (l + i)) := by
  rw [field, shr64_eq, BitVec.getLsbD_and, BitVec.getLsbD_ushiftRight, getLsbD_mask]
  by_cases h : i < 64
  · simp [h, Bool.and_comm]
  · have : W.getLsbD (l + i) = false := BitVec.getLsbD_of_ge _ _ (by omega)
    simp [h, this]

/-- A set, bit by bit: the field's bits come from the value, all others stay (R41, R107). -/
theorem getLsbD_setField (W v : Word) {w l : Nat} (h : w + l ≤ 64) (i : Nat) :
    (setField W w l v).getLsbD i = if l ≤ i ∧ i < l + w then v.getLsbD (i - l) else W.getLsbD i := by
  rw [setField, shl64_eq, shl64_eq]
  by_cases hi : i < 64
  · by_cases h1 : l ≤ i
    · by_cases h2 : i < l + w
      · have h3 : i - l < 64 := by omega
        have h4 : i - l < w := by omega
        have h5 : ¬ i < l := by omega
        simp [h1, h2, h3, h4, h5, hi]
      · have h4 : ¬ i - l < w := by omega
        have h5 : ¬ i < l := by omega
        simp [h1, h2, h4, h5, hi]
    · have h5 : i < l := by omega
      simp [h1, h5, hi]
  · have h2 : ¬ (l ≤ i ∧ i < l + w) := by omega
    have h6 : W.getLsbD i = false := BitVec.getLsbD_of_ge _ _ (by omega)
    simp [h2, hi, h6]

/-- A field as an integer (R105). -/
theorem toNat_field (W : Word) (w l : Nat) : (field W w l).toNat = W.toNat / 2 ^ l % 2 ^ w := by
  apply Nat.eq_of_testBit_eq
  intro i
  rw [← BitVec.getLsbD, getLsbD_field, Nat.testBit_mod_two_pow, Nat.testBit_div_two_pow, BitVec.getLsbD, Nat.add_comm]

theorem fitsU_iff (v : Word) (w : Nat) : fitsU v w = true ↔ v.toNat < 2 ^ w := by
  unfold fitsU u64
  split
  · have : v.toNat < 2 ^ w := lt_of_lt_of_le v.isLt (Nat.pow_le_pow_right (by norm_num) ‹_›)
    simp [this]
  · simp

theorem fitsU_high {v : Word} {w : Nat} (h : fitsU v w = true) {i : Nat} (hi : w ≤ i) : v.getLsbD i = false := by
  have h1 := (fitsU_iff v w).1 h
  exact Nat.testBit_lt_two_pow (lt_of_lt_of_le h1 (Nat.pow_le_pow_right (by norm_num) hi))

/-- Get after set, unsigned (R109). -/
theorem field_setField {W v : Word} {w l : Nat} (h : w + l ≤ 64) (hv : fitsU v w = true) :
    field (setField W w l v) w l = v := by
  apply BitVec.eq_of_getLsbD_eq
  intro i _
  rw [getLsbD_field, getLsbD_setField W v h]
  by_cases h1 : i < w
  · simp [h1]
  · simp [h1, fitsU_high hv (Nat.le_of_not_lt h1)]

/-- The low `w` bits of the field just set, whatever the value (R108). -/
theorem field_setField_low {W v : Word} {w l : Nat} (h : w + l ≤ 64) :
    field (setField W w l v) w l = v &&& mask w := by
  apply BitVec.eq_of_getLsbD_eq
  intro i hi
  rw [getLsbD_field, getLsbD_setField W v h, BitVec.getLsbD_and, getLsbD_mask]
  by_cases h1 : i < w <;> simp [h1, hi]

/-- A set leaves a field that shares no bit with it alone (R109 (i)). -/
theorem field_setField_disjoint {W v : Word} {w l w' l' : Nat} (h : w + l ≤ 64)
    (hd : l + w ≤ l' ∨ l' + w' ≤ l) : field (setField W w l v) w' l' = field W w' l' := by
  apply BitVec.eq_of_getLsbD_eq
  intro i _
  rw [getLsbD_field, getLsbD_field, getLsbD_setField W v h]
  by_cases h1 : i < w'
  · have : ¬ (l ≤ l' + i ∧ l' + i < l + w) := by omega
    simp [h1, this]
  · simp [h1]

/-- Sign extension, bit by bit (R106). -/
theorem getLsbD_sext64 {u : Word} {w : Nat} (hu : ∀ i, w ≤ i → u.getLsbD i = false) {i : Nat}
    (hi : i < 64) : (sext64 u w).getLsbD i = if i < w then u.getLsbD i else u.getLsbD (w - 1) := by
  unfold sext64
  by_cases hs : u.getLsbD (w - 1) = true
  · by_cases h1 : i < w
    · simp [hs, h1, hi]
    · simp [hs, h1, hi]
  · by_cases h1 : i < w
    · simp [hs, h1]
    · simp [hs, h1, hu i (by omega)]

/-- Sign extension as an integer: `u − 2^w` if bit `w − 1` is 1, else `u` (R106). -/
theorem toInt_sext64 {u : Word} {w : Nat} (hw : 0 < w) (hw' : w ≤ 64) (hu : u.toNat < 2 ^ w) :
    (sext64 u w).toInt = if 2 ^ (w - 1) ≤ u.toNat then (u.toNat : Int) - 2 ^ w else (u.toNat : Int) := by
  have hv : u = (u.setWidth w).setWidth 64 := by
    apply BitVec.eq_of_toNat_eq
    rw [BitVec.toNat_setWidth, BitVec.toNat_setWidth, Nat.mod_eq_of_lt hu, Nat.mod_eq_of_lt u.isLt]
  have hbits : ∀ i, w ≤ i → u.getLsbD i = false := fun i hi =>
    Nat.testBit_lt_two_pow (lt_of_lt_of_le hu (Nat.pow_le_pow_right (by norm_num) hi))
  have hs : sext64 u w = (u.setWidth w).signExtend 64 := by
    apply BitVec.eq_of_getLsbD_eq
    intro i hi
    rw [getLsbD_sext64 hbits hi, BitVec.getLsbD_signExtend, BitVec.msb_eq_getLsbD_last]
    by_cases h1 : i < w
    · simp [h1, hi]
    · have : w - 1 < w := by omega
      simp [h1, hi, this]
  rw [hs, BitVec.toInt_signExtend_of_le hw', BitVec.toInt_eq_toNat_cond, BitVec.toNat_setWidth, Nat.mod_eq_of_lt hu]
  have h2 : 2 ^ w = 2 * 2 ^ (w - 1) := by
    conv_lhs => rw [show w = (w - 1) + 1 by omega]
    rw [pow_succ]; ring
  by_cases h1 : 2 ^ (w - 1) ≤ u.toNat
  · have : ¬ 2 * u.toNat < 2 ^ w := by omega
    simp [h1, this]
  · have : 2 * u.toNat < 2 ^ w := by omega
    simp [h1, this]

theorem fitsS_iff {v : Word} {w : Nat} (hw : 0 < w) (hw' : w ≤ 64) :
    fitsS v w = true ↔ -(2 ^ (w - 1) : Int) ≤ v.toInt ∧ v.toInt < (2 ^ (w - 1) : Int) := by
  unfold fitsS
  by_cases h : 64 ≤ w
  · obtain rfl : w = 64 := by omega
    have h1 := v.le_toInt
    have h2 := v.toInt_lt
    norm_num at h1 h2 ⊢
    omega
  · have h0 : w ≠ 0 := by omega
    simp [h, h0, s64_eq_toInt]

/-- A value that fits `w` signed bits is the sign extension of its low `w` bits (R108). -/
theorem sext64_low {v : Word} {w : Nat} (hw : 0 < w) (hw' : w ≤ 64) (hv : fitsS v w = true) :
    sext64 (v &&& mask w) w = v := by
  obtain ⟨h1, h2⟩ := (fitsS_iff hw hw').1 hv
  have hlow : (v &&& mask w).toNat = v.toNat % 2 ^ w := by
    apply Nat.eq_of_testBit_eq
    intro i
    rw [← BitVec.getLsbD, BitVec.getLsbD_and, getLsbD_mask, Nat.testBit_mod_two_pow, BitVec.getLsbD, Bool.and_comm]
    by_cases hi : i < 64
    · simp [hi]
    · have : v.toNat.testBit i = false :=
        Nat.testBit_lt_two_pow (lt_of_lt_of_le v.isLt (Nat.pow_le_pow_right (by norm_num) (by omega)))
      simp [this]
  have hlt : (v &&& mask w).toNat < 2 ^ w := by rw [hlow]; exact Nat.mod_lt _ (by positivity)
  apply BitVec.eq_of_toInt_eq
  rw [toInt_sext64 hw hw' hlt, hlow]
  have hp : (2 : Int) ^ w = 2 * 2 ^ (w - 1) := by
    conv_lhs => rw [show w = (w - 1) + 1 by omega]
    rw [pow_succ]; ring
  have hpn : 2 ^ w = 2 * 2 ^ (w - 1) := by exact_mod_cast hp
  have hpos : 0 < 2 ^ (w - 1) := by positivity
  have hdvd : (2 : Int) ^ w ∣ 2 ^ 64 := pow_dvd_pow 2 hw'
  have hmod : ((v.toNat % 2 ^ w : Nat) : Int) = v.toInt % 2 ^ w := by
    rw [BitVec.toInt_eq_toNat_cond]
    split
    · push_cast; rfl
    · rw [Int.sub_emod, Int.emod_eq_zero_of_dvd (show (2 : Int) ^ w ∣ ((2 ^ 64 : Nat) : Int) by exact_mod_cast hdvd)]
      simp
  have hpi : ((2 ^ (w - 1) : Nat) : Int) = 2 ^ (w - 1) := by push_cast; rfl
  rw [hmod]
  by_cases hneg : v.toInt < 0
  · have he : v.toInt % 2 ^ w = v.toInt + 2 ^ w := by
      rw [← Int.add_emod_right]
      exact Int.emod_eq_of_lt (by omega) (by omega)
    have : 2 ^ (w - 1) ≤ v.toNat % 2 ^ w := by
      have := hmod.trans he; omega
    rw [if_pos this, he]; ring
  · have he : v.toInt % 2 ^ w = v.toInt := Int.emod_eq_of_lt (by omega) (by omega)
    have : ¬ 2 ^ (w - 1) ≤ v.toNat % 2 ^ w := by
      have := hmod.trans he; omega
    rw [if_neg this, he]

/-! The four field functions, by what they answer. -/

theorem getU_legal {W : Word} {w l : Nat} (h : w + l ≤ 64) : getU W w l = .ok (field W w l) := by
  rw [getU, checkDesc_legal h]; rfl

theorem getU_malformed {W : Word} {w l : Nat} (h : 64 < w + l) : getU W w l = raiseContractViolation := by
  rw [getU, checkDesc_malformed h]; rfl

theorem getS_legal {W : Word} {w l : Nat} (h : w + l ≤ 64) :
    getS W w l = .ok (if w = 0 then 0 else sext64 (field W w l) w) := by
  rw [getS, checkDesc_legal h]; rfl

theorem getS_malformed {W : Word} {w l : Nat} (h : 64 < w + l) : getS W w l = raiseContractViolation := by
  rw [getS, checkDesc_malformed h]; rfl

/-- Everything `SETU` can do. -/
theorem setU_cases (W v : Word) (w l : Nat) :
    (64 < w + l ∧ setU W w l v = raiseContractViolation) ∨
    (w + l ≤ 64 ∧ fitsU v w = true ∧ setU W w l v = .ok (setField W w l v)) ∨
    (w + l ≤ 64 ∧ fitsU v w = false ∧ setU W w l v = raiseOverflow) := by
  rcases Nat.lt_or_ge 64 (w + l) with h | h
  · exact .inl ⟨h, by rw [setU, checkDesc_malformed h]; rfl⟩
  · cases hf : fitsU v w with
    | true => exact .inr (.inl ⟨h, rfl, by rw [setU, checkDesc_legal h, hf]; rfl⟩)
    | false => exact .inr (.inr ⟨h, rfl, by rw [setU, checkDesc_legal h, hf]; rfl⟩)

/-- Everything `SETS` can do. -/
theorem setS_cases (W v : Word) (w l : Nat) :
    (64 < w + l ∧ setS W w l v = raiseContractViolation) ∨
    (w + l ≤ 64 ∧ fitsS v w = true ∧ setS W w l v = .ok (setField W w l v)) ∨
    (w + l ≤ 64 ∧ fitsS v w = false ∧ setS W w l v = raiseOverflow) := by
  rcases Nat.lt_or_ge 64 (w + l) with h | h
  · exact .inl ⟨h, by rw [setS, checkDesc_malformed h]; rfl⟩
  · cases hf : fitsS v w with
    | true => exact .inr (.inl ⟨h, rfl, by rw [setS, checkDesc_legal h, hf]; rfl⟩)
    | false => exact .inr (.inr ⟨h, rfl, by rw [setS, checkDesc_legal h, hf]; rfl⟩)

theorem setU_fits {W v : Word} {w l : Nat} (h : w + l ≤ 64) (hf : fitsU v w = true) :
    setU W w l v = .ok (setField W w l v) := by
  rw [setU, checkDesc_legal h, hf]; rfl

theorem setS_fits {W v : Word} {w l : Nat} (h : w + l ≤ 64) (hf : fitsS v w = true) :
    setS W w l v = .ok (setField W w l v) := by
  rw [setS, checkDesc_legal h, hf]; rfl

end Sys2Proof.Machine
end

