-- ==== Sys2Proof/Laws/Num.lean ====
section
/-! SUPPORT. The reference instantiation `NUM_Q` is the rationals (spec R7, 00_scope section 5): its operations, its rounding and
its truncation. -/

namespace Sys2Proof.Machine

variable (t : RoundTies) (x y : Rat)

@[simp] theorem numQ_fint (k : Int) : (numQ t).fint k = (k : Rat) := rfl
@[simp] theorem numQ_add : (numQ t).add x y = x + y := rfl
@[simp] theorem numQ_sub : (numQ t).sub x y = x - y := rfl
@[simp] theorem numQ_mul : (numQ t).mul x y = x * y := rfl
@[simp] theorem numQ_div : (numQ t).div x y = x / y := rfl
@[simp] theorem numQ_lt : (numQ t).lt x y = decide (x < y) := rfl
@[simp] theorem numQ_le : (numQ t).le x y = decide (x ≤ y) := rfl
@[simp] theorem numQ_ge : (numQ t).ge x y = decide (x ≥ y) := rfl
@[simp] theorem numQ_gt : (numQ t).gt x y = decide (x > y) := rfl
@[simp] theorem numQ_fround : (numQ t).fround x = some (froundQ t x) := rfl
@[simp] theorem numQ_ftrunc : (numQ t).ftrunc x = some (ftruncQ x) := rfl
@[simp] theorem numQ_flit (d : DecLit) : (numQ t).flit d = (d.digits : Rat) / (10 ^ d.places : Rat) := rfl

/-- A configuration built with `NUM_Q` computes with `NUM_Q`. -/
theorem numOf_exact {c : Config} (h : c.num = .exactRational t) : numOf c = numQ t := by
  simp [numOf, h]

theorem floorQ_eq : floorQ x = ⌊x⌋ := (Rat.floor_def x).symm

/-- `fround` goes to a nearest integer: it moves a value by at most one half, whatever `ROUND_TIES`. -/
theorem froundQ_close : |x - (froundQ t x : Rat)| ≤ 1 / 2 := by
  have h0 := Int.floor_le x
  have h1 := Int.lt_floor_add_one x
  unfold froundQ
  rw [floorQ_eq]
  simp only
  split
  · rw [abs_le]; constructor <;> linarith
  · split
    · push_cast; rw [abs_le]; constructor <;> linarith
    · split
      · push_cast; rw [abs_le]; constructor <;> linarith
      · rw [abs_le]; constructor <;> linarith

/-- An integer within less than one half is the rounded value. -/
theorem froundQ_unique {k : Int} (h : |x - (k : Rat)| < 1 / 2) : froundQ t x = k := by
  have h0 := froundQ_close t x
  rw [abs_le] at h0
  rw [abs_lt] at h
  have h1 : ((froundQ t x - k : Int) : Rat) < 1 := by push_cast; linarith
  have h2 : (-1 : Rat) < ((froundQ t x - k : Int) : Rat) := by push_cast; linarith
  have h3 : froundQ t x - k < 1 := by exact_mod_cast h1
  have h4 : -1 < froundQ t x - k := by exact_mod_cast h2
  omega

@[simp] theorem froundQ_intCast (k : Int) : froundQ t (k : Rat) = k := froundQ_unique t _ (by simp)

/-- Rounding does not cross an integer bound from above. -/
theorem froundQ_le {k : Int} (h : x ≤ (k : Rat)) : froundQ t x ≤ k := by
  have h0 := (abs_le.1 (froundQ_close t x)).1
  have h1 : ((froundQ t x : Int) : Rat) < ((k + 1 : Int) : Rat) := by push_cast; linarith
  have : froundQ t x < k + 1 := by exact_mod_cast h1
  omega

/-- Rounding does not cross an integer bound from below. -/
theorem le_froundQ {k : Int} (h : (k : Rat) ≤ x) : k ≤ froundQ t x := by
  have h0 := (abs_le.1 (froundQ_close t x)).2
  have h1 : ((k - 1 : Int) : Rat) < ((froundQ t x : Int) : Rat) := by push_cast; linarith
  have : k - 1 < froundQ t x := by exact_mod_cast h1
  omega

/-- Rounding keeps the order, whatever `ROUND_TIES`. -/
theorem froundQ_mono {x y : Rat} (h : x ≤ y) : froundQ t x ≤ froundQ t y := by
  rcases h.eq_or_lt with rfl | hlt
  · exact le_rfl
  · have hx := (abs_le.1 (froundQ_close t x)).1
    have hy := (abs_le.1 (froundQ_close t y)).2
    have h1 : ((froundQ t x : Int) : Rat) < ((froundQ t y + 1 : Int) : Rat) := by push_cast; linarith
    have : froundQ t x < froundQ t y + 1 := by exact_mod_cast h1
    omega

/-- The default tie rule rounds a tie away from zero (R9). -/
theorem froundQ_tie_away (h : |x - (froundQ .halfAwayFromZero x : Rat)| = 1 / 2) :
    |x| < |((froundQ .halfAwayFromZero x : Int) : Rat)| := by
  have h0 := Int.floor_le x
  have h1 := Int.lt_floor_add_one x
  revert h
  unfold froundQ
  rw [floorQ_eq]
  simp only [tieUp, decide_eq_true_eq]
  split
  · intro h; rw [abs_of_nonneg (by linarith)] at h; linarith
  · split
    · intro h; push_cast at h; rw [abs_of_nonpos (by linarith)] at h; linarith
    · split
      · rename_i hk
        intro _
        have : (0 : Rat) ≤ (⌊x⌋ : Rat) := by exact_mod_cast hk
        push_cast
        rw [abs_of_nonneg (by linarith), abs_of_nonneg (by linarith)]; linarith
      · rename_i hk
        intro _
        have : (⌊x⌋ : Rat) ≤ -1 := by exact_mod_cast (by omega : ⌊x⌋ ≤ -1)
        rw [abs_of_neg (by linarith), abs_of_neg (by linarith)]; linarith

theorem ftruncQ_of_nonneg (h : 0 ≤ x) : ftruncQ x = ⌊x⌋ := by
  rw [ftruncQ, if_neg (not_lt.2 h), floorQ_eq]

theorem ftruncQ_of_neg (h : x < 0) : ftruncQ x = -⌊-x⌋ := by
  rw [ftruncQ, if_pos h, floorQ_eq]

@[simp] theorem ftruncQ_intCast (k : Int) : ftruncQ (k : Rat) = k := by
  by_cases h : (k : Rat) < 0
  · rw [ftruncQ_of_neg _ h, show -(k : Rat) = ((-k : Int) : Rat) by push_cast; rfl, Int.floor_intCast]; omega
  · rw [ftruncQ_of_nonneg _ (not_lt.1 h), Int.floor_intCast]

theorem ftruncQ_nonneg (h : 0 ≤ x) : 0 ≤ ftruncQ x := by
  rw [ftruncQ_of_nonneg _ h]; exact Int.floor_nonneg.2 h

theorem ftruncQ_le {k : Int} (h0 : 0 ≤ x) (h : x ≤ (k : Rat)) : ftruncQ x ≤ k := by
  rw [ftruncQ_of_nonneg _ h0]
  have : ((⌊x⌋ : Int) : Rat) ≤ k := (Int.floor_le x).trans h
  exact_mod_cast this

end Sys2Proof.Machine
end

