-- ==== Sys2Proof/Laws/Codec.lean ====
section
/-! SUPPORT. What the numeric functions and the six-field packing can do, said once per function (spec R131 to R135, R161 to R163,
R167, R181 to R183). -/

namespace Sys2Proof.Machine

/-! ### ColorTransform -/

theorem normalizePixel_nonzero (N : NumOps) (px : Pixel) {den : Nat} (h : den ≠ 0) :
    normalizePixel N px den =
      .ok ⟨N.div (N.fint px.r) (N.fint den), N.div (N.fint px.g) (N.fint den), N.div (N.fint px.b) (N.fint den)⟩ := by
  simp [normalizePixel, h]

@[simp] theorem normalizePixel_zero (N : NumOps) (px : Pixel) : normalizePixel N px 0 = raiseDomainFault := by
  simp [normalizePixel]

/-- Under `NUM_Q` a clamped lane is the clamp to [0,1] (R134). -/
theorem clampLane_numQ (t : RoundTies) (x : Rat) : clampLane (numQ t) x = max 0 (min 1 x) := by
  simp only [clampLane, numQ_lt, numQ_gt, numQ_fint, decide_eq_true_eq, Int.cast_zero, Int.cast_one]
  split
  · rename_i h
    rw [max_eq_left]
    exact (min_le_right _ _).trans h.le
  · rename_i h
    split
    · rename_i h'
      rw [min_eq_left (le_of_lt h'), max_eq_right (by norm_num)]
    · rename_i h'
      rw [min_eq_right (not_lt.1 h'), max_eq_right (not_lt.1 h)]

/-- Everything one lane of `DENORM` can do (R135). -/
theorem denormLane_cases (N : NumOps) (cw : Nat) (x : F) (den : Nat) :
    (∃ z, N.ftrunc (N.mul x (N.fint den)) = some z ∧ 0 ≤ z ∧ z ≤ 2 ^ cw - 1 ∧
      denormLane N cw x den = .ok z.toNat) ∨
    ((N.ftrunc (N.mul x (N.fint den)) = none ∨
        ∃ z, N.ftrunc (N.mul x (N.fint den)) = some z ∧ (z < 0 ∨ 2 ^ cw - 1 < z)) ∧
      denormLane N cw x den = raiseDomainFault) := by
  obtain ⟨z, h1, h2, h3, h4⟩ | ⟨h1, h2⟩ := onPort_cases (N.ftrunc (N.mul x (N.fint den))) 0 (2 ^ cw - 1)
  · exact .inl ⟨z, h1, h2, h3, by rw [denormLane, h4]; rfl⟩
  · exact .inr ⟨h1, by rw [denormLane, h2]; rfl⟩

theorem denormLane_fits {N : NumOps} {cw : Nat} {x : F} {den : Nat} {z : Int}
    (h : N.ftrunc (N.mul x (N.fint den)) = some z) (h1 : 0 ≤ z) (h2 : z ≤ 2 ^ cw - 1) :
    denormLane N cw x den = .ok z.toNat := by
  rw [denormLane, h, onPort_some h1 h2]; rfl

/-- `DENORM` answers when its three lanes do, and faults otherwise. -/
theorem denormalize_cases (N : NumOps) (cw : Nat) (t : Triple) (den : Nat) :
    (∃ r g b, denormLane N cw t.x0 den = .ok r ∧ denormLane N cw t.x1 den = .ok g ∧ denormLane N cw t.x2 den = .ok b ∧
      denormalize N cw t den = .ok ⟨r, g, b⟩) ∨
    ((∃ x ∈ [t.x0, t.x1, t.x2], denormLane N cw x den = raiseDomainFault) ∧
      denormalize N cw t den = raiseDomainFault) := by
  unfold denormalize
  obtain ⟨z0, -, -, -, h0⟩ | ⟨-, h0⟩ := denormLane_cases N cw t.x0 den
  · obtain ⟨z1, -, -, -, h1⟩ | ⟨-, h1⟩ := denormLane_cases N cw t.x1 den
    · obtain ⟨z2, -, -, -, h2⟩ | ⟨-, h2⟩ := denormLane_cases N cw t.x2 den
      · exact .inl ⟨_, _, _, h0, h1, h2, by rw [h0, h1, h2]; rfl⟩
      · exact .inr ⟨⟨t.x2, by simp, h2⟩, by rw [h0, h1, h2]; rfl⟩
    · exact .inr ⟨⟨t.x1, by simp, h1⟩, by rw [h0, h1]; rfl⟩
  · exact .inr ⟨⟨t.x0, by simp, h0⟩, by rw [h0]; rfl⟩

/-! ### Quantizer -/

/-- A 64-bit pattern made from an integer of its range is read back as that integer. -/
theorem toInt_ofInt64 {z : Int} (h1 : -(2 ^ 63) ≤ z) (h2 : z ≤ 2 ^ 63 - 1) : (BitVec.ofInt 64 z).toInt = z := by
  rw [BitVec.toInt_ofInt, Int.bmod_def]; split <;> omega

/-- Everything `QAVG` can do (R161). -/
theorem quantizeAverage_cases (N : NumOps) (a : F) :
    (∃ z, N.fround (N.mul a (N.fint 63)) = some z ∧ -(2 ^ 63) ≤ z ∧ z ≤ 2 ^ 63 - 1 ∧
      quantizeAverage N a = .ok (BitVec.ofInt 64 z)) ∨
    ((N.fround (N.mul a (N.fint 63)) = none ∨
        ∃ z, N.fround (N.mul a (N.fint 63)) = some z ∧ (z < -(2 ^ 63) ∨ 2 ^ 63 - 1 < z)) ∧
      quantizeAverage N a = raiseDomainFault) := by
  obtain ⟨z, h1, h2, h3, h4⟩ | ⟨h1, h2⟩ := onPort_cases (N.fround (N.mul a (N.fint 63))) (-(2 ^ 63)) (2 ^ 63 - 1)
  · exact .inl ⟨z, h1, h2, h3, by rw [quantizeAverage, h4]; rfl⟩
  · exact .inr ⟨h1, by rw [quantizeAverage, h2]; rfl⟩

/-- `QDET` answers or raises a DomainFault, nothing else (R163, R200). -/
theorem quantizeDetail_cases (N : NumOps) (x : F) :
    (∃ v, quantizeDetail N x = .ok v) ∨ quantizeDetail N x = raiseDomainFault := by
  unfold quantizeDetail
  split
  · exact .inl ⟨_, rfl⟩
  · split
    · exact .inl ⟨_, rfl⟩
    · split
      · exact .inr rfl
      · exact .inl ⟨_, rfl⟩

/-- The integer `QDET` answers under `NUM_Q` (R163). -/
def detailQ (t : RoundTies) (x : Rat) : Int :=
  if x ≤ -3 / 10 then -15 else if 3 / 10 ≤ x then 15 else froundQ t (x * 50)

theorem quantizeDetail_numQ (t : RoundTies) (x : Rat) :
    quantizeDetail (numQ t) x = .ok (BitVec.ofInt 64 (detailQ t x)) := by
  simp only [quantizeDetail, detailQ, numQ_le, numQ_ge, numQ_flit, decide_eq_true_eq, numQ_fround, numQ_mul, numQ_fint]
  norm_num
  split
  · rfl
  · split <;> rfl

/-- "every input, however large, maps into −15..15" (R163). -/
theorem detailQ_range (t : RoundTies) (x : Rat) : -15 ≤ detailQ t x ∧ detailQ t x ≤ 15 := by
  unfold detailQ
  split
  · omega
  · split
    · omega
    · exact ⟨le_froundQ _ _ (by push_cast; linarith), froundQ_le _ _ (by push_cast; linarith)⟩

theorem quantizeAverage_numQ (t : RoundTies) {a : Rat} (h1 : -(2 ^ 63) ≤ froundQ t (a * 63))
    (h2 : froundQ t (a * 63) ≤ 2 ^ 63 - 1) :
    quantizeAverage (numQ t) a = .ok (BitVec.ofInt 64 (froundQ t (a * 63))) := by
  unfold quantizeAverage
  simp only [numQ_fround, numQ_mul, numQ_fint]
  rw [show ((63 : Int) : Rat) = 63 by norm_num, onPort_some h1 h2]
  rfl

/-! ### Packing -/

/-- When the six values fit, packing answers the six sets one after the other (R181 step 5). -/
theorem pack6_fits {f : PackedFields} (ha : fitsU f.a 6 = true) (hb : fitsS f.b 6 = true) (hc : fitsS f.c 6 = true)
    (hd : fitsS f.d 6 = true) (hpb : fitsU f.pb 4 = true) (hpr : fitsU f.pr 4 = true) :
    pack6 f = .ok (setField (setField (setField (setField (setField (setField 0 6 26 f.a) 6 20 f.b) 6 14 f.c) 6 8 f.d)
      4 4 f.pb) 4 0 f.pr) := by
  simp only [pack6]
  rw [setU_fits (by norm_num) ha]
  simp only [bind, Except.bind]
  rw [setS_fits (by norm_num) hb]
  simp only
  rw [setS_fits (by norm_num) hc]
  simp only
  rw [setS_fits (by norm_num) hd]
  simp only
  rw [setU_fits (by norm_num) hpb]
  simp only
  rw [setU_fits (by norm_num) hpr]

/-- Packing answers or raises the recoverable Overflow: the six descriptors are legal constants (R181 (iii)). -/
theorem pack6_cases (f : PackedFields) :
    (fitsU f.a 6 = true ∧ fitsS f.b 6 = true ∧ fitsS f.c 6 = true ∧ fitsS f.d 6 = true ∧ fitsU f.pb 4 = true ∧
      fitsU f.pr 4 = true ∧ ∃ W, pack6 f = .ok W) ∨
    (¬ (fitsU f.a 6 = true ∧ fitsS f.b 6 = true ∧ fitsS f.c 6 = true ∧ fitsS f.d 6 = true ∧ fitsU f.pb 4 = true ∧
      fitsU f.pr 4 = true) ∧ pack6 f = raiseOverflow) := by
  unfold pack6
  simp only [bind, Except.bind]
  rcases setU_cases 0 f.a 6 26 with ⟨h, -⟩ | ⟨-, h1, e1⟩ | ⟨-, h1, e1⟩
  · omega
  · rw [e1]; simp only
    rcases setS_cases (setField 0 6 26 f.a) f.b 6 20 with ⟨h, -⟩ | ⟨-, h2, e2⟩ | ⟨-, h2, e2⟩
    · omega
    · rw [e2]; simp only
      rcases setS_cases (setField (setField 0 6 26 f.a) 6 20 f.b) f.c 6 14 with ⟨h, -⟩ | ⟨-, h3, e3⟩ | ⟨-, h3, e3⟩
      · omega
      · rw [e3]; simp only
        rcases setS_cases (setField (setField (setField 0 6 26 f.a) 6 20 f.b) 6 14 f.c) f.d 6 8 with
          ⟨h, -⟩ | ⟨-, h4, e4⟩ | ⟨-, h4, e4⟩
        · omega
        · rw [e4]; simp only
          rcases setU_cases (setField (setField (setField (setField 0 6 26 f.a) 6 20 f.b) 6 14 f.c) 6 8 f.d) f.pb 4 4 with
            ⟨h, -⟩ | ⟨-, h5, e5⟩ | ⟨-, h5, e5⟩
          · omega
          · rw [e5]; simp only
            rcases setU_cases (setField (setField (setField (setField (setField 0 6 26 f.a) 6 20 f.b) 6 14 f.c) 6 8 f.d)
              4 4 f.pb) f.pr 4 0 with ⟨h, -⟩ | ⟨-, h6, e6⟩ | ⟨-, h6, e6⟩
            · omega
            · exact .inl ⟨h1, h2, h3, h4, h5, h6, _, e6⟩
            · exact .inr ⟨by simp [h6], e6⟩
          · exact .inr ⟨by simp [h5], by rw [e5]; rfl⟩
        · exact .inr ⟨by simp [h4], by rw [e4]; rfl⟩
      · exact .inr ⟨by simp [h3], by rw [e3]; rfl⟩
    · exact .inr ⟨by simp [h2], by rw [e2]; rfl⟩
  · exact .inr ⟨by simp [h1], by rw [e1]; rfl⟩

/-- Unpacking never fails, and reads the fields at their places (R80, R83). -/
theorem unpack6_eq (W : Word) :
    unpack6 W = .ok ⟨field W 6 26, sext64 (field W 6 20) 6, sext64 (field W 6 14) 6, sext64 (field W 6 8) 6,
      field W 4 4, field W 4 0⟩ := by
  simp only [unpack6, bind, Except.bind]
  rw [getU_legal (by norm_num), getS_legal (by norm_num), getS_legal (by norm_num), getS_legal (by norm_num),
    getU_legal (by norm_num), getU_legal (by norm_num)]
  rfl

/-- What a 4-bit index is extended to always fits its field (R167). -/
theorem index_fits (i : BitVec 4) : fitsU (i.setWidth 64) 4 = true := by
  rw [fitsU_iff, BitVec.toNat_setWidth]
  have := i.isLt
  omega

end Sys2Proof.Machine
end

