-- ==== Sys2Proof/Laws/Decode.lean ====
section
/-! SUPPORT. The small lemmas of the port conversions (spec R74). -/

namespace Sys2Proof

variable {pw : Widths}

/-- A descriptor operand that fits its port is carried whole. -/
@[simp] theorem desc_of_lt {n : Nat} (h : n < 2 ^ pw.dw) : pw.desc n = n := Nat.mod_eq_of_lt h

/-- A component or denominator that fits its port is carried whole. -/
@[simp] theorem comp_of_lt {n : Nat} (h : n < 2 ^ pw.cw) : pw.comp n = n := Nat.mod_eq_of_lt h

/-- What a port carries fits it. -/
theorem desc_lt (n : Nat) : pw.desc n < 2 ^ pw.dw := Nat.mod_lt _ (Nat.two_pow_pos _)

theorem comp_lt (n : Nat) : pw.comp n < 2 ^ pw.cw := Nat.mod_lt _ (Nat.two_pow_pos _)

@[simp] theorem desc_desc (n : Nat) : pw.desc (pw.desc n) = pw.desc n := desc_of_lt (desc_lt n)

@[simp] theorem comp_comp (n : Nat) : pw.comp (pw.comp n) = pw.comp n := comp_of_lt (comp_lt n)

/-- A pixel fits its port when its three components do. -/
theorem fits_iff {p : Pixel} : p.fits pw = true ↔ p.r < 2 ^ pw.cw ∧ p.g < 2 ^ pw.cw ∧ p.b < 2 ^ pw.cw := by
  simp [Pixel.fits, and_assoc]

/-- A pixel that fits its port is carried whole. -/
theorem carried_of_fits {p : Pixel} (h : p.fits pw = true) : p.carried pw = p := by
  obtain ⟨hr, hg, hb⟩ := fits_iff.1 h
  simp only [Pixel.carried, comp_of_lt hr, comp_of_lt hg, comp_of_lt hb]

/-- What a pixel port carries fits it. -/
@[simp] theorem fits_carried (p : Pixel) : (p.carried pw).fits pw = true :=
  fits_iff.2 ⟨comp_lt _, comp_lt _, comp_lt _⟩

@[simp] theorem carried_carried (p : Pixel) : (p.carried pw).carried pw = p.carried pw :=
  carried_of_fits (fits_carried p)

/-- The unsigned reading of `cmd.q` (R74). -/
theorem q_unsigned {q : Nat} (h : q < 2 ^ 6) : (BitVec.ofNat 6 q).toNat = q := by
  rw [BitVec.toNat_ofNat, Nat.mod_eq_of_lt h]

/-- The two's complement reading of `cmd.q` (R74). -/
theorem q_signed {q : Int} (h1 : -32 ≤ q) (h2 : q ≤ 31) : (BitVec.ofInt 6 q).toInt = q := by
  rw [BitVec.toInt_ofInt, Int.bmod_def]
  split <;> omega

end Sys2Proof
end

