-- ==== Sys2Proof/Laws/Exec.lean ====
section
/-! SUPPORT. What a command and a step can do, said once: a command's result depends on the configuration and its operands
alone (spec R20), and the rest is `finish` (spec R205). -/

namespace Sys2Proof.Machine

/-- What a command computes, as a function of the configuration and its operands (R20). -/
def resultOf (c : Config) : Instr → Result Results
  | .fitsu value width => .ok { fit := some (fitsU value width) }
  | .fitss value width => .ok { fit := some (fitsS value width) }
  | .getu word width lsb => (getU word width lsb).map fun v => { value := some v }
  | .gets word width lsb => (getS word width lsb).map fun v => { value := some v }
  | .setu word width lsb value => (setU word width lsb value).map fun v => { word := some v }
  | .sets word width lsb value => (setS word width lsb value).map fun v => { word := some v }
  | .norm px0 den => (normalizePixel (numOf c) px0 den).map tripleResults
  | .rgb2ypp n0 n1 n2 => .ok (tripleResults (toLumaChroma (numOf c) ⟨n0, n1, n2⟩))
  | .ypp2rgb n0 n1 n2 => .ok (tripleResults (toRgb (numOf c) ⟨n0, n1, n2⟩))
  | .clamp01 n0 n1 n2 => .ok (tripleResults (clamp01 (numOf c) ⟨n0, n1, n2⟩))
  | .denorm n0 n1 n2 den => (denormalize (numOf c) c.widths.cw ⟨n0, n1, n2⟩ den).map fun p => { px0 := some p }
  | .btfwd n0 n1 n2 n3 => .ok (quadResults (forwardTransform (numOf c) ⟨n0, n1, n2, n3⟩))
  | .btinv n0 n1 n2 n3 => .ok (quadResults (inverseTransform (numOf c) ⟨n0, n1, n2, n3⟩))
  | .qavg n0 => (quantizeAverage (numOf c) n0).map fun v => { value := some v }
  | .dqavg q => .ok { m0 := some (dequantizeAverage (numOf c) q) }
  | .qdet n0 => (quantizeDetail (numOf c) n0).map fun v => { value := some v }
  | .dqdet q => .ok { m0 := some (dequantizeDetail (numOf c) q) }
  | .cidx n0 => .ok { idx := some ((chromaOfConfig c).indexOf n0) }
  | .cval idx => .ok { m0 := some ((chromaOfConfig c).chromaOf idx) }
  | .blkenc px0 px1 px2 px3 den =>
    (encodeBlock (numOf c) (chromaOfConfig c) px0 px1 px2 px3 den).map fun p => { packed := some p }
  | .blkdec packed => (decodeBlock (numOf c) (chromaOfConfig c) c.widths.cw packed).map pxQuadResults

/-- Every command's meaning is its result, finished. -/
theorem exec_eq (i : Instr) (s : State) : exec i s = .next (finish s (resultOf s.cfg i)) := by
  cases i <;> rfl

/-- What a port bundle computes: the decoded command's result, or IllegalOp. -/
def portsResult (c : Config) (p : Ports) : Result Results :=
  match decode c.widths p with
  | .ok i => resultOf c i
  | .error _ => .error (.fatal .illegalOp)

theorem step_idle {s : State} (h : s.inputs = []) : step s = .next s := by
  simp only [step, h]

/-- A command event: the command is taken off the input and its result finished. -/
theorem step_command {s : State} {p : Ports} {rest : List HostEvent} (h : s.inputs = .command p :: rest) :
    step s = .next (finish { s with inputs := rest } (portsResult s.cfg p)) := by
  cases hd : decode s.cfg.widths p with
  | ok i => simp only [step, h, hd, exec_eq, portsResult]
  | error e => simp only [step, h, hd, portsResult, answerIllegalOp, answer_eq]

theorem step_reset {s : State} {a : List Ports} {rest : List HostEvent} (h : s.inputs = .reset a :: rest) :
    step s = .next (resetBlock { s with inputs := rest }) := by
  simp only [step, h]

/-- Everything a step can do. -/
theorem step_cases (s : State) :
    (s.inputs = [] ∧ step s = .next s) ∨
    (∃ p rest, s.inputs = .command p :: rest ∧
      step s = .next (finish { s with inputs := rest } (portsResult s.cfg p))) ∨
    (∃ a rest, s.inputs = .reset a :: rest ∧ step s = .next (resetBlock { s with inputs := rest })) := by
  match h : s.inputs with
  | [] => exact .inl ⟨rfl, step_idle h⟩
  | .command p :: rest => exact .inr (.inl ⟨p, rest, rfl, step_command h⟩)
  | .reset a :: rest => exact .inr (.inr ⟨a, rest, rfl, step_reset h⟩)

theorem advance_command {s : State} {p : Ports} {rest : List HostEvent} (h : s.inputs = .command p :: rest) :
    advance s = finish { s with inputs := rest } (portsResult s.cfg p) := by
  simp [advance, step_command h]

end Sys2Proof.Machine
end

