-- ==== Sys2Proof/Laws/Packing.lean ====
section
/-! SUPPORT. The PackedBlock as bits: what packing writes where, and that unpacking reads it back (spec R80 to R83, R181). -/

namespace Sys2Proof.Machine

/-- The six sets leave the six fields side by side, the first at the top (R80). -/
theorem packed_layout (a b c d : Word) (i j : BitVec 4) :
   (setField (setField (setField (setField (setField (setField 0 6 26 a) 6 20 b) 6 14 c) 6 8 d)
      4 4 (i.setWidth 64)) 4 0 (j.setWidth 64)).setWidth 32 =
      (a.setWidth 6 ++ b.setWidth 6 ++ c.setWidth 6 ++ d.setWidth 6 ++ i ++ j : BitVec 32) := by
  apply BitVec.eq_of_getLsbD_eq
  intro k hk
  rw [BitVec.getLsbD_setWidth]
  iterate 6 rw [getLsbD_setField _ _ (by norm_num)]
  simp only [BitVec.getLsbD_append, BitVec.getLsbD_setWidth]
  interval_cases k <;> simp

/-- `BLKENC` once its six fields are made and fit (R181). -/
theorem encodeBlock_fits {N C p0 p1 p2 p3 den} {a b c d : Word} {i j : BitVec 4}
    (hq : encodeFields N C p0 p1 p2 p3 den = .ok ⟨a, b, c, d, i.setWidth 64, j.setWidth 64⟩)
    (fa : fitsU a 6 = true) (fb : fitsS b 6 = true) (fc : fitsS c 6 = true) (fd : fitsS d 6 = true) :
    encodeBlock N C p0 p1 p2 p3 den = .ok (a.setWidth 6 ++ b.setWidth 6 ++ c.setWidth 6 ++ d.setWidth 6 ++ i ++ j) := by
  have h := pack6_fits (f := ⟨a, b, c, d, i.setWidth 64, j.setWidth 64⟩) fa fb fc fd (index_fits i) (index_fits j)
  have : encodeBlock N C p0 p1 p2 p3 den =
      (overflowIsFatal (pack6 ⟨a, b, c, d, i.setWidth 64, j.setWidth 64⟩)).map fun W => W.setWidth 32 := by
    unfold encodeBlock; rw [hq]; rfl
  rw [this, h, ← packed_layout]; rfl

/-- Steps 1 to 4 of `BLKENC` on pixels that can be normalized (R181). -/
theorem encodeFields_eq {N : NumOps} {C : Chroma} {p0 p1 p2 p3 : Pixel} {den : Nat} (h : den ≠ 0) {t : Pixel → Triple}
    (ht : ∀ p, t p = toLumaChroma N ⟨N.div (N.fint p.r) (N.fint den), N.div (N.fint p.g) (N.fint den),
      N.div (N.fint p.b) (N.fint den)⟩) :
    encodeFields N C p0 p1 p2 p3 den = quantizeBlock N C (t p0) (t p1) (t p2) (t p3) := by
  have key : ∀ p, pixelToYpp N p den = .ok (t p) := by
    intro p; rw [ht, pixelToYpp, normalizePixel_nonzero _ _ h]; rfl
  simp only [encodeFields, key]; rfl

/-- A Word with nothing above bit 31 is its low half extended (R82). -/
theorem low32_extend (W : Word) (h : ∀ i, 32 ≤ i → W.getLsbD i = false) : (W.setWidth 32).setWidth 64 = W := by
  apply BitVec.eq_of_getLsbD_eq
  intro i hi
  simp only [BitVec.getLsbD_setWidth]
  by_cases h2 : i < 32
  · simp [h2, hi]
  · rw [h i (by omega)]; simp [h2]

/-- Unpacking undoes packing (R83). -/
theorem unpack6_pack6 {f : PackedFields} (ha : fitsU f.a 6 = true) (hb : fitsS f.b 6 = true) (hc : fitsS f.c 6 = true)
    (hd : fitsS f.d 6 = true) (hpb : fitsU f.pb 4 = true) (hpr : fitsU f.pr 4 = true) :
    ∀ W, pack6 f = .ok W → unpack6 ((W.setWidth 32).setWidth 64) = .ok f := by
  intro W hW
  rw [pack6_fits ha hb hc hd hpb hpr] at hW
  cases hW
  rw [low32_extend]
  · rw [unpack6_eq]
    have d : ∀ {W v : Word} {w l w' l'}, w + l ≤ 64 → (l + w ≤ l' ∨ l' + w' ≤ l) →
        field (setField W w l v) w' l' = field W w' l' := fun h1 h2 => field_setField_disjoint h1 h2
    congr 1
    cases f
    simp only [PackedFields.mk.injEq]
    refine ⟨?_, ?_, ?_, ?_, ?_, ?_⟩
    · iterate 5 rw [d (by norm_num) (by norm_num)]
      rw [field_setField (by norm_num) ha]
    · iterate 4 rw [d (by norm_num) (by norm_num)]
      rw [field_setField_low (by norm_num), sext64_low (by norm_num) (by norm_num) hb]
    · iterate 3 rw [d (by norm_num) (by norm_num)]
      rw [field_setField_low (by norm_num), sext64_low (by norm_num) (by norm_num) hc]
    · iterate 2 rw [d (by norm_num) (by norm_num)]
      rw [field_setField_low (by norm_num), sext64_low (by norm_num) (by norm_num) hd]
    · rw [d (by norm_num) (by norm_num)]
      rw [field_setField (by norm_num) hpb]
    · rw [field_setField (by norm_num) hpr]
  · intro i hi
    iterate 6 rw [getLsbD_setField _ _ (by norm_num)]
    repeat rw [if_neg (by omega)]
    simp

/-- Unpacking reads the six fields of a packed word (R80, R83). -/
theorem unpack6_packed {a b c d : Word} {i j : BitVec 4} (fa : fitsU a 6 = true)
    (fb : fitsS b 6 = true) (fc : fitsS c 6 = true) (fd : fitsS d 6 = true) :
   unpack6 ((a.setWidth 6 ++ b.setWidth 6 ++ c.setWidth 6 ++ d.setWidth 6 ++ i ++ j : BitVec 32).setWidth 64) =
    .ok ⟨a, b, c, d, i.setWidth 64, j.setWidth 64⟩ := by
  rw [← packed_layout]
  exact unpack6_pack6 (f := ⟨a, b, c, d, i.setWidth 64, j.setWidth 64⟩) fa fb fc fd (index_fits i) (index_fits j)
    _ (pack6_fits (f := ⟨a, b, c, d, i.setWidth 64, j.setWidth 64⟩) fa fb fc fd (index_fits i) (index_fits j))

/-- `BLKDEC` answers the four pixels that the last conversion gives its four positions, or raises a DomainFault (R182, R204). -/
theorem decodeBlock_cases (N : NumOps) (C : Chroma) (cw : Nat) (packed : BitVec 32) :
    (∃ t0 t1 t2 t3 o0 o1 o2 o3, denormalize N cw t0 255 = .ok o0 ∧ denormalize N cw t1 255 = .ok o1 ∧
      denormalize N cw t2 255 = .ok o2 ∧ denormalize N cw t3 255 = .ok o3 ∧
      decodeBlock N C cw packed = .ok ⟨o0, o1, o2, o3⟩) ∨
    decodeBlock N C cw packed = raiseDomainFault := by
  unfold decodeBlock
  rw [unpack6_eq]
  simp only [bind, Except.bind, pixelFromYpp]
  generalize clamp01 N (toRgb N ⟨(inverseTransform N _).x0, _, _⟩) = t0
  generalize clamp01 N (toRgb N ⟨(inverseTransform N _).x1, _, _⟩) = t1
  generalize clamp01 N (toRgb N ⟨(inverseTransform N _).x2, _, _⟩) = t2
  generalize clamp01 N (toRgb N ⟨(inverseTransform N _).x3, _, _⟩) = t3
  obtain ⟨_, _, _, -, -, -, h0⟩ | ⟨-, h0⟩ := denormalize_cases N cw t0 255
  · obtain ⟨_, _, _, -, -, -, h1⟩ | ⟨-, h1⟩ := denormalize_cases N cw t1 255
    · obtain ⟨_, _, _, -, -, -, h2⟩ | ⟨-, h2⟩ := denormalize_cases N cw t2 255
      · obtain ⟨_, _, _, -, -, -, h3⟩ | ⟨-, h3⟩ := denormalize_cases N cw t3 255
        · exact .inl ⟨t0, t1, t2, t3, _, _, _, _, h0, h1, h2, h3, by rw [h0, h1, h2, h3]; rfl⟩
        · exact .inr (by rw [h0, h1, h2, h3]; rfl)
      · exact .inr (by rw [h0, h1, h2]; rfl)
    · exact .inr (by rw [h0, h1]; rfl)
  · exact .inr (by rw [h0]; rfl)

end Sys2Proof.Machine
end

