-- ==== Sys2Proof/Laws/PerInstr.lean ====
section
/-! SUPPORT. A statement about every command as syntax, one lemma per constructor (LAWS.json, family EncodesItsPorts). -/

namespace Sys2Proof.Laws.EncodesItsPorts

/-- The encoder puts the command's own op code on `cmd.op`, that op code is none of the reserved ones (R73), and every
operand port that R71 does not let the command read carries the port's zero. -/
def Statement (i : Instr) : Prop :=
  (encode i).op = i.op ∧ reservedOps.contains i.op = false ∧
    ∀ pw c, (opReads i.op).contains c = false → (encode i).sameOn pw { op := i.op } c = true

theorem fitsu (value : Word) (width : Nat) : Statement (.fitsu value width) :=
  ⟨rfl, rfl, fun _ c h => by cases c <;> first | exact beq_self_eq_true _ | exact Bool.noConfusion (show true = false from h)⟩

theorem fitss (value : Word) (width : Nat) : Statement (.fitss value width) :=
  ⟨rfl, rfl, fun _ c h => by cases c <;> first | exact beq_self_eq_true _ | exact Bool.noConfusion (show true = false from h)⟩

theorem getu (word : Word) (width lsb : Nat) : Statement (.getu word width lsb) :=
  ⟨rfl, rfl, fun _ c h => by cases c <;> first | exact beq_self_eq_true _ | exact Bool.noConfusion (show true = false from h)⟩

theorem gets (word : Word) (width lsb : Nat) : Statement (.gets word width lsb) :=
  ⟨rfl, rfl, fun _ c h => by cases c <;> first | exact beq_self_eq_true _ | exact Bool.noConfusion (show true = false from h)⟩

theorem setu (word : Word) (width lsb : Nat) (value : Word) : Statement (.setu word width lsb value) :=
  ⟨rfl, rfl, fun _ c h => by cases c <;> first | exact beq_self_eq_true _ | exact Bool.noConfusion (show true = false from h)⟩

theorem sets (word : Word) (width lsb : Nat) (value : Word) : Statement (.sets word width lsb value) :=
  ⟨rfl, rfl, fun _ c h => by cases c <;> first | exact beq_self_eq_true _ | exact Bool.noConfusion (show true = false from h)⟩

theorem norm (px0 : Pixel) (den : Nat) : Statement (.norm px0 den) :=
  ⟨rfl, rfl, fun _ c h => by cases c <;> first | exact beq_self_eq_true _ | exact Bool.noConfusion (show true = false from h)⟩

theorem rgb2ypp (n0 n1 n2 : F) : Statement (.rgb2ypp n0 n1 n2) :=
  ⟨rfl, rfl, fun _ c h => by cases c <;> first | exact beq_self_eq_true _ | exact Bool.noConfusion (show true = false from h)⟩

theorem ypp2rgb (n0 n1 n2 : F) : Statement (.ypp2rgb n0 n1 n2) :=
  ⟨rfl, rfl, fun _ c h => by cases c <;> first | exact beq_self_eq_true _ | exact Bool.noConfusion (show true = false from h)⟩

theorem clamp01 (n0 n1 n2 : F) : Statement (.clamp01 n0 n1 n2) :=
  ⟨rfl, rfl, fun _ c h => by cases c <;> first | exact beq_self_eq_true _ | exact Bool.noConfusion (show true = false from h)⟩

theorem denorm (n0 n1 n2 : F) (den : Nat) : Statement (.denorm n0 n1 n2 den) :=
  ⟨rfl, rfl, fun _ c h => by cases c <;> first | exact beq_self_eq_true _ | exact Bool.noConfusion (show true = false from h)⟩

theorem btfwd (n0 n1 n2 n3 : F) : Statement (.btfwd n0 n1 n2 n3) :=
  ⟨rfl, rfl, fun _ c h => by cases c <;> first | exact beq_self_eq_true _ | exact Bool.noConfusion (show true = false from h)⟩

theorem btinv (n0 n1 n2 n3 : F) : Statement (.btinv n0 n1 n2 n3) :=
  ⟨rfl, rfl, fun _ c h => by cases c <;> first | exact beq_self_eq_true _ | exact Bool.noConfusion (show true = false from h)⟩

theorem qavg (n0 : F) : Statement (.qavg n0) :=
  ⟨rfl, rfl, fun _ c h => by cases c <;> first | exact beq_self_eq_true _ | exact Bool.noConfusion (show true = false from h)⟩

theorem dqavg (q : Nat) : Statement (.dqavg q) :=
  ⟨rfl, rfl, fun _ c h => by cases c <;> first | exact beq_self_eq_true _ | exact Bool.noConfusion (show true = false from h)⟩

theorem qdet (n0 : F) : Statement (.qdet n0) :=
  ⟨rfl, rfl, fun _ c h => by cases c <;> first | exact beq_self_eq_true _ | exact Bool.noConfusion (show true = false from h)⟩

theorem dqdet (q : Int) : Statement (.dqdet q) :=
  ⟨rfl, rfl, fun _ c h => by cases c <;> first | exact beq_self_eq_true _ | exact Bool.noConfusion (show true = false from h)⟩

theorem cidx (n0 : F) : Statement (.cidx n0) :=
  ⟨rfl, rfl, fun _ c h => by cases c <;> first | exact beq_self_eq_true _ | exact Bool.noConfusion (show true = false from h)⟩

theorem cval (idx : BitVec 4) : Statement (.cval idx) :=
  ⟨rfl, rfl, fun _ c h => by cases c <;> first | exact beq_self_eq_true _ | exact Bool.noConfusion (show true = false from h)⟩

theorem blkenc (px0 px1 px2 px3 : Pixel) (den : Nat) : Statement (.blkenc px0 px1 px2 px3 den) :=
  ⟨rfl, rfl, fun _ c h => by cases c <;> first | exact beq_self_eq_true _ | exact Bool.noConfusion (show true = false from h)⟩

theorem blkdec (packed : BitVec 32) : Statement (.blkdec packed) :=
  ⟨rfl, rfl, fun _ c h => by cases c <;> first | exact beq_self_eq_true _ | exact Bool.noConfusion (show true = false from h)⟩

end Sys2Proof.Laws.EncodesItsPorts
end

