-- ==== Sys2Proof/Laws/Result.lean ====
section
/-! SUPPORT. Everything a command's result can be, over all commands (spec R71, R200): `OK` with the table's ports, or one of the
faults that command can raise. -/

namespace Sys2Proof.Machine

/-- Everything a command can compute. -/
theorem resultOf_cases (c : Config) (i : Instr) :
    (∃ ports, resultOf c i = .ok ports ∧ ports.driven = i.drives) ∨
    (resultOf c i = .error .overflow ∧ i.op ∈ [0x05#5, 0x06#5]) ∨
    (resultOf c i = .error (.fatal .overflow) ∧ i.op = 0x1C#5) ∨
    (resultOf c i = .error (.fatal .contractViolation) ∧ i.op ∈ [0x03#5, 0x04#5, 0x05#5, 0x06#5] ∧
      match i with
      | .getu _ w l => 64 < w ∨ 64 < w + l
      | .gets _ w l => 64 < w ∨ 64 < w + l
      | .setu _ w l _ => 64 < w ∨ 64 < w + l
      | .sets _ w l _ => 64 < w ∨ 64 < w + l
      | _ => False) ∨
    (resultOf c i = .error (.fatal .domainFault) ∧ i.op ∈ [0x08#5, 0x0C#5, 0x14#5, 0x16#5, 0x1C#5, 0x1D#5]) := by
  cases i with
  | fitsu v w => exact .inl ⟨_, rfl, rfl⟩
  | fitss v w => exact .inl ⟨_, rfl, rfl⟩
  | getu W w l =>
    rcases Nat.lt_or_ge 64 (w + l) with h | h
    · refine .inr (.inr (.inr (.inl ⟨?_, by simp [Instr.op], .inr h⟩))); rw [resultOf, getU_malformed h]; rfl
    · refine .inl ⟨_, by rw [resultOf, getU_legal h]; rfl, rfl⟩
  | gets W w l =>
    rcases Nat.lt_or_ge 64 (w + l) with h | h
    · refine .inr (.inr (.inr (.inl ⟨?_, by simp [Instr.op], .inr h⟩))); rw [resultOf, getS_malformed h]; rfl
    · refine .inl ⟨_, by rw [resultOf, getS_legal h]; rfl, rfl⟩
  | setu W w l v =>
    rcases setU_cases W v w l with ⟨h, e⟩ | ⟨h, hf, e⟩ | ⟨h, hf, e⟩
    · refine .inr (.inr (.inr (.inl ⟨?_, by simp [Instr.op], .inr h⟩))); rw [resultOf, e]; rfl
    · refine .inl ⟨_, by rw [resultOf, e]; rfl, rfl⟩
    · refine .inr (.inl ⟨?_, by simp [Instr.op]⟩); rw [resultOf, e]; rfl
  | sets W w l v =>
    rcases setS_cases W v w l with ⟨h, e⟩ | ⟨h, hf, e⟩ | ⟨h, hf, e⟩
    · refine .inr (.inr (.inr (.inl ⟨?_, by simp [Instr.op], .inr h⟩))); rw [resultOf, e]; rfl
    · refine .inl ⟨_, by rw [resultOf, e]; rfl, rfl⟩
    · refine .inr (.inl ⟨?_, by simp [Instr.op]⟩); rw [resultOf, e]; rfl
  | norm p d =>
    by_cases h : d = 0
    · subst h; refine .inr (.inr (.inr (.inr ⟨?_, by simp [Instr.op]⟩))); rw [resultOf, normalizePixel_zero]; rfl
    · refine .inl ⟨_, by rw [resultOf, normalizePixel_nonzero _ _ h]; rfl, rfl⟩
  | rgb2ypp a b c => exact .inl ⟨_, rfl, rfl⟩
  | ypp2rgb a b c => exact .inl ⟨_, rfl, rfl⟩
  | clamp01 a b c => exact .inl ⟨_, rfl, rfl⟩
  | denorm a b e d =>
    rcases denormalize_cases (numOf c) c.widths.cw ⟨a, b, e⟩ d with ⟨r, g, b, -,-,-,e⟩ | ⟨-, e⟩
    · refine .inl ⟨_, by rw [resultOf, e]; rfl, rfl⟩
    · refine .inr (.inr (.inr (.inr ⟨?_, by simp [Instr.op]⟩))); rw [resultOf, e]; rfl
  | btfwd a b c d => exact .inl ⟨_, rfl, rfl⟩
  | btinv a b c d => exact .inl ⟨_, rfl, rfl⟩
  | qavg a =>
    rcases quantizeAverage_cases (numOf c) a with ⟨z, -, -, -, e⟩ | ⟨-, e⟩
    · refine .inl ⟨_, by rw [resultOf, e]; rfl, rfl⟩
    · refine .inr (.inr (.inr (.inr ⟨?_, by simp [Instr.op]⟩))); rw [resultOf, e]; rfl
  | dqavg q => exact .inl ⟨_, rfl, rfl⟩
  | qdet x =>
    rcases quantizeDetail_cases (numOf c) x with ⟨v, e⟩ | e
    · refine .inl ⟨_, by rw [resultOf, e]; rfl, rfl⟩
    · refine .inr (.inr (.inr (.inr ⟨?_, by simp [Instr.op]⟩))); rw [resultOf, e]; rfl
  | dqdet q => exact .inl ⟨_, rfl, rfl⟩
  | cidx x => exact .inl ⟨_, rfl, rfl⟩
  | cval i => exact .inl ⟨_, rfl, rfl⟩
  | blkenc p0 p1 p2 p3 d =>
    by_cases h : d = 0
    · subst h
      refine .inr (.inr (.inr (.inr ⟨?_, by simp [Instr.op]⟩)))
      rw [resultOf]
      simp [encodeBlock, encodeFields, pixelToYpp, raiseDomainFault, bind, Except.bind, Except.map]
    · have hq : ∃ t0 t1 t2 t3, encodeFields (numOf c) (chromaOfConfig c) p0 p1 p2 p3 d =
          quantizeBlock (numOf c) (chromaOfConfig c) t0 t1 t2 t3 := by
        refine ⟨_, _, _, _, encodeFields_eq h (t := fun p => _) (fun p => rfl)⟩
      obtain ⟨t0,t1,t2,t3,hq⟩ := hq
      have hq2 : (∃ f, quantizeBlock (numOf c) (chromaOfConfig c) t0 t1 t2 t3 = .ok f) ∨
          quantizeBlock (numOf c) (chromaOfConfig c) t0 t1 t2 t3 = raiseDomainFault := by
        simp only [quantizeBlock]
        rcases quantizeAverage_cases (numOf c)
              (forwardTransform (numOf c) ⟨t0.x0, t1.x0, t2.x0, t3.x0⟩).x0 with ⟨z, -, -, -, e0⟩ | ⟨-, e0⟩
        · rcases quantizeDetail_cases (numOf c)
              (forwardTransform (numOf c) ⟨t0.x0, t1.x0, t2.x0, t3.x0⟩).x1 with ⟨v1, e1⟩ | e1
          · rcases quantizeDetail_cases (numOf c)
                (forwardTransform (numOf c) ⟨t0.x0, t1.x0, t2.x0, t3.x0⟩).x2 with ⟨v2, e2⟩ | e2
            · rcases quantizeDetail_cases (numOf c)
                  (forwardTransform (numOf c) ⟨t0.x0, t1.x0, t2.x0, t3.x0⟩).x3 with ⟨v3, e3⟩ | e3
              · left; exact ⟨_, by rw [e0, e1, e2, e3]; rfl⟩
              · right; rw [e0, e1, e2, e3]; rfl
            · right; rw [e0, e1, e2]; rfl
          · right; rw [e0, e1]; rfl
        · right; rw [e0]; rfl
      rcases hq2 with ⟨f, hf⟩ | hf
      · rcases pack6_cases f with ⟨-, -, -, -, -, -, W, hW⟩ | ⟨-, hW⟩
        · left
          refine ⟨{ packed := some (W.setWidth 32) }, ?_, rfl⟩
          rw [resultOf, encodeBlock, hq, hf]; simp only [bind, Except.bind]; rw [hW]; rfl
        · right; right; left
          refine ⟨?_, rfl⟩
          rw [resultOf, encodeBlock, hq, hf]; simp only [bind, Except.bind]; rw [hW]; rfl
      · refine .inr (.inr (.inr (.inr ⟨?_, by simp [Instr.op]⟩)))
        rw [resultOf, encodeBlock, hq, hf]; rfl
  | blkdec p =>
    rw [resultOf]
    obtain ⟨_, _, _, _, o0, o1, o2, o3, -, -, -, -, e⟩ | e :=
      decodeBlock_cases (numOf c) (chromaOfConfig c) c.widths.cw p
    · exact .inl ⟨pxQuadResults ⟨o0, o1, o2, o3⟩, by rw [e]; rfl, rfl⟩
    · exact .inr (.inr (.inr (.inr ⟨by rw [e]; rfl, by simp [Instr.op]⟩)))

/-- What `DENORM` answers fits its pixel port (R27, R135). -/
theorem denormalize_fits {N : NumOps} {pw : Widths} {t : Triple} {den : Nat} {p : Pixel}
    (h : denormalize N pw.cw t den = .ok p) : p.fits pw = true := by
  have lane : ∀ {x c}, denormLane N pw.cw x den = .ok c → c < 2 ^ pw.cw := by
    intro x c hc
    obtain ⟨z, -, h0, h1, e⟩ | ⟨-, e⟩ := denormLane_cases N pw.cw x den <;> rw [e] at hc <;> cases hc
    have : ((2 ^ pw.cw : Nat) : Int) = 2 ^ pw.cw := by push_cast; rfl
    omega
  obtain ⟨r, g, b, h0, h1, h2, e⟩ | ⟨-, e⟩ := denormalize_cases N pw.cw t den <;> rw [e] at h <;> cases h
  exact fits_iff.2 ⟨lane h0, lane h1, lane h2⟩

/-- With legal port widths 255 fits the denominator port (R9, R182). -/
theorem den255_fits {pw : Widths} (h : pw.legal = true) : 255 < 2 ^ pw.cw := by
  simp only [Widths.legal, Bool.and_eq_true, decide_eq_true_eq] at h
  exact lt_of_lt_of_le (by norm_num) (Nat.pow_le_pow_right (by norm_num) h.2)

/-- What a command computes fits the result ports (R27, R74). -/
theorem resultOf_fits {c : Config} {i : Instr} {ports : Results} (hw : c.widths.legal = true)
    (h : resultOf c i = .ok ports) : ports.fitsPorts c.widths = true := by
  have nothing : ∀ {α : Type} {r : Result α} {f : α → Results}, (∀ v, (f v).fitsPorts c.widths = true) →
      r.map f = .ok ports → ports.fitsPorts c.widths = true := by
    intro α r f hf e
    cases r <;> cases e
    exact hf _
  cases i <;> simp only [resultOf] at h
  case denorm n0 n1 n2 den =>
    cases e : denormalize (numOf c) c.widths.cw ⟨n0, n1, n2⟩ den <;> rw [e] at h <;> cases h
    simp [Results.fitsPorts, denormalize_fits e]
  case blkdec packed =>
    obtain ⟨_, _, _, _, _, _, _, _, h0, h1, h2, h3, e⟩ | e :=
      decodeBlock_cases (numOf c) (chromaOfConfig c) c.widths.cw packed <;> rw [e] at h <;> cases h
    simp [Results.fitsPorts, pxQuadResults, denormalize_fits h0, denormalize_fits h1, denormalize_fits h2,
      denormalize_fits h3, den255_fits hw]
  all_goals first
    | (cases h; rfl)
    | exact nothing (fun _ => rfl) h

end Sys2Proof.Machine
end

