-- ==== Sys2Proof/Laws/Stream.lean ====
section
/-! SUPPORT. The small lemmas of the host's stream: the grid walk, exact prefixes, decimal numbers (spec R51, R53, R55). -/

namespace Sys2Proof.Machine

theorem gridWalk_succ (w h : Nat) :
    gridWalk w (h + 1) = gridWalk w h ++ (List.range w).map fun i => (i, h) := by
  simp [gridWalk, List.range_succ]

@[simp] theorem gridWalk_length (w h : Nat) : (gridWalk w h).length = w * h := by
  induction h with
  | zero => simp [gridWalk]
  | succ h ih => rw [gridWalk_succ]; simp [ih, Nat.mul_succ]

/-- The walk visits (col, row) at place `row * w + col`. -/
theorem gridWalk_getElem? {w h col row : Nat} (hc : col < w) (hr : row < h) :
    (gridWalk w h)[row * w + col]? = some (col, row) := by
  induction h with
  | zero => omega
  | succ h ih =>
    rw [gridWalk_succ]
    rcases Nat.lt_or_ge row h with hlt | hge
    · rw [List.getElem?_append_left (by
        rw [gridWalk_length]
        calc row * w + col < row * w + w := by omega
          _ = w * (row + 1) := by ring
          _ ≤ w * h := Nat.mul_le_mul_left _ hlt)]
      exact ih hlt
    · obtain rfl : row = h := by omega
      rw [List.getElem?_append_right (by rw [gridWalk_length, Nat.mul_comm]; omega), gridWalk_length,
        show row * w + col - w * row = col by rw [Nat.mul_comm]; omega]
      simp [hc]

/-- Exactly the places of the grid are visited. -/
theorem mem_gridWalk {w h : Nat} {ij : Nat × Nat} : ij ∈ gridWalk w h ↔ ij.1 < w ∧ ij.2 < h := by
  obtain ⟨i, j⟩ := ij
  simp [gridWalk, and_comm]

/-- What an exact prefix leaves. -/
@[simp] theorem dropPrefix_append (t bs : List Byte) : dropPrefix t (t ++ bs) = some bs := by
  induction t with
  | nil => rfl
  | cons x t ih => simp [dropPrefix, ih]

/-- A stream without the prefix has no rest. -/
theorem dropPrefix_none {t bs : List Byte} (h : ¬ t <+: bs) : dropPrefix t bs = none := by
  induction t generalizing bs with
  | nil => simp at h
  | cons x t ih =>
    cases bs with
    | nil => rfl
    | cons b bs =>
      simp only [dropPrefix]
      split
      · rename_i e
        subst e
        exact ih fun hp => h (by simpa using hp)
      · rfl

/-- The value of digits written least significant first. -/
def valueRev : List Nat → Nat
  | [] => 0
  | d :: ds => d + 10 * valueRev ds

theorem digitsRev_lt_ten (fuel n : Nat) : ∀ d ∈ digitsRev fuel n, d < 10 := by
  induction fuel generalizing n with
  | zero => simp [digitsRev]
  | succ f ih =>
    simp only [digitsRev]
    split
    · simpa
    · simp only [List.mem_cons]
      rintro d (rfl | h)
      · omega
      · exact ih _ d h

theorem valueRev_digitsRev {fuel n : Nat} (h : n < fuel) : valueRev (digitsRev fuel n) = n := by
  induction fuel generalizing n with
  | zero => omega
  | succ f ih =>
    simp only [digitsRev]
    split
    · simp [valueRev]
    · simp only [valueRev]
      rw [ih (by omega)]
      omega

/-- The first digit written is 0 for the number 0 alone. -/
theorem digitsRev_last {fuel n : Nat} (h : n < fuel) :
    ∃ d, (digitsRev fuel n).getLast? = some d ∧ (d = 0 → digitsRev fuel n = [0]) := by
  induction fuel generalizing n with
  | zero => omega
  | succ f ih =>
    simp only [digitsRev]
    split
    · exact ⟨n, rfl, fun hz => by rw [hz]⟩
    · obtain ⟨d, hd, hz⟩ := ih (n := n / 10) (by omega)
      refine ⟨d, ?_, fun h0 => ?_⟩
      · rw [List.getLast?_cons, hd]; rfl
      · have hv := valueRev_digitsRev (fuel := f) (n := n / 10) (by omega)
        rw [hz h0] at hv
        simp [valueRev] at hv
        omega

theorem digit_byte {d : Nat} (h : d < 10) : (BitVec.ofNat 8 (48 + d)).toNat = 48 + d := by
  rw [BitVec.toNat_ofNat, Nat.mod_eq_of_lt (by omega)]

/-- A number's decimal ASCII is digits only. -/
theorem decimalAscii_digits (n : Nat) : ∀ b ∈ decimalAscii n, isDigit b = true := by
  intro b hb
  simp only [decimalAscii, List.mem_reverse, List.mem_map] at hb
  obtain ⟨d, hd, rfl⟩ := hb
  have := digitsRev_lt_ten _ _ d hd
  simp only [isDigit, digit_byte this, Bool.and_eq_true, decide_eq_true_eq]
  omega

/-- A number's decimal ASCII is read as the number. -/
theorem decimalValue_decimalAscii (n : Nat) : decimalValue (decimalAscii n) = n := by
  have key : ∀ ds : List Nat, (∀ d ∈ ds, d < 10) →
      decimalValue ((ds.map fun d => BitVec.ofNat 8 (48 + d)).reverse) = valueRev ds := by
    intro ds
    induction ds with
    | nil => intro _; rfl
    | cons d ds ih =>
      intro h
      have hd := digit_byte (h d (by simp))
      have := ih fun x hx => h x (by simp [hx])
      simp only [decimalValue] at this
      simp only [List.map_cons, List.reverse_cons, decimalValue, List.foldl_append, List.foldl_cons, List.foldl_nil,
        this, hd, valueRev]
      omega
  rw [decimalAscii, key _ (digitsRev_lt_ten _ _), valueRev_digitsRev (by omega)]

/-- A number's decimal ASCII has a first byte, which is `0` for the number 0 alone. -/
theorem decimalAscii_head (n : Nat) :
    ∃ b, (decimalAscii n).head? = some b ∧ (b = 0x30 → (decimalAscii n).length = 1) := by
  obtain ⟨d, hd, hz⟩ := digitsRev_last (fuel := n + 1) (n := n) (by omega)
  have hlt := digitsRev_lt_ten _ _ d (List.mem_of_getLast? hd)
  refine ⟨BitVec.ofNat 8 (48 + d), ?_, fun h0 => ?_⟩
  · simp [decimalAscii, List.getLast?_map, hd]
  · have := congrArg BitVec.toNat h0
    rw [digit_byte hlt] at this
    rw [decimalAscii, hz (by simpa using this)]
    rfl

/-- A number's decimal ASCII is taken whole, whatever follows it that does not begin with a digit. -/
theorem takeNumber_decimalAscii (sp : StreamParams) (n : Nat) {bs : List Byte} (hb : ∀ b ∈ bs.head?, isDigit b = false) :
    takeNumber sp (decimalAscii n ++ bs) = some (n, bs) := by
  obtain ⟨c, hc, hz⟩ := decimalAscii_head n
  have ht : (decimalAscii n ++ bs).takeWhile isDigit = decimalAscii n := by
    rw [List.takeWhile_append_of_pos (decimalAscii_digits n)]
    cases bs <;> simp_all
  have hd : (decimalAscii n ++ bs).dropWhile isDigit = bs := by
    rw [List.dropWhile_append_of_pos (decimalAscii_digits n)]
    cases bs <;> simp_all
  have hne : (decimalAscii n).isEmpty = false := by
    cases h : decimalAscii n with
    | nil => rw [h] at hc; cases hc
    | cons => rfl
  simp only [takeNumber, ht, hd, hne, decimalValue_decimalAscii, Bool.false_or]
  rw [if_neg]
  simp only [hc, Bool.and_eq_true, decide_eq_true_eq, beq_iff_eq, not_and]
  intro h1 h2
  have := hz (by simpa using h2)
  omega

end Sys2Proof.Machine
end

