-- ==== Sys2Proof/Tests/Slice0.lean ====
section
/-! SUPPORT. The model's own tests: ill-formed terms, words written out from the spec's encodings, single steps whose answers
are the spec's vectors (95_test_vectors.md), and for every statement with hypotheses a state and operands that meet them.
Vectors marked (T0) there are run with the fixture table. -/

namespace Sys2Proof.Tests

set_option Elab.async false

open Sys2Proof.Machine

/-! ### Ill-formed terms, one per check of WellFormed -/

theorem test_wellFormed_width : [Instr.fitsu 0 256, .fitss 0 256, .getu 0 256 0, .gets 0 256 0, .setu 0 256 0 0,
    .sets 0 256 0 0].all (fun i => !i.wellFormed {}) = true := by decide

theorem test_wellFormed_lsb : [Instr.getu 0 0 256, .gets 0 0 256, .setu 0 0 256 0, .sets 0 0 256 0].all
    (fun i => !i.wellFormed {}) = true := by decide

theorem test_wellFormed_component : [Instr.norm ⟨65536, 0, 0⟩ 1, .norm ⟨0, 65536, 0⟩ 1, .norm ⟨0, 0, 65536⟩ 1,
    .blkenc ⟨65536, 0, 0⟩ ⟨0, 0, 0⟩ ⟨0, 0, 0⟩ ⟨0, 0, 0⟩ 1, .blkenc ⟨0, 0, 0⟩ ⟨0, 65536, 0⟩ ⟨0, 0, 0⟩ ⟨0, 0, 0⟩ 1,
    .blkenc ⟨0, 0, 0⟩ ⟨0, 0, 0⟩ ⟨0, 0, 65536⟩ ⟨0, 0, 0⟩ 1, .blkenc ⟨0, 0, 0⟩ ⟨0, 0, 0⟩ ⟨0, 0, 0⟩ ⟨65536, 0, 0⟩ 1].all
    (fun i => !i.wellFormed {}) = true := by decide

theorem test_wellFormed_den : [Instr.norm ⟨0, 0, 0⟩ 65536, .denorm 0 0 0 65536,
    .blkenc ⟨0, 0, 0⟩ ⟨0, 0, 0⟩ ⟨0, 0, 0⟩ ⟨0, 0, 0⟩ 65536].all (fun i => !i.wellFormed {}) = true := by decide

theorem test_wellFormed_q : [Instr.dqavg 64, .dqdet 32, .dqdet (-33)].all (fun i => !i.wellFormed {}) = true := by decide

theorem test_wellFormed_bounds : [Instr.fitsu 0 255, .getu 0 255 255, .norm ⟨65535, 65535, 65535⟩ 65535, .dqavg 63,
    .dqdet 31, .dqdet (-32)].all (fun i => i.wellFormed {}) = true := by decide

/-- R9's limits of the port widths, and commands that fit wide ports but not narrow ones. -/
theorem test_widths : Widths.legal {} = true ∧ Widths.legal ⟨7, 8⟩ = true ∧ Widths.legal ⟨6, 8⟩ = false ∧
    Widths.legal ⟨7, 7⟩ = false ∧ (Instr.fitsu 0 128).wellFormed ⟨7, 8⟩ = false ∧
    (Instr.norm ⟨0, 0, 0⟩ 256).wellFormed ⟨7, 8⟩ = false ∧ (Instr.norm ⟨0, 0, 0⟩ 256).wellFormed ⟨7, 9⟩ = true := by decide

/-! ### Decoding: the ports as R26, R71, R72 and R74 lay them out, each operand at a value of its own -/

theorem test_decode_bitField :
    decode {} { op := 0b00001, value := 63, width := 6, word := 1, lsb := 2 } = .ok (.fitsu 63 6) ∧
    decode {} { op := 0b00010, value := 0xFFFFFFFFFFFFFFE0, width := 0b11111111 } =
      .ok (.fitss 0xFFFFFFFFFFFFFFE0 255) ∧
    decode {} { op := 0b00011, word := 0x80000077, width := 6, lsb := 0b00011010, value := 9 } =
      .ok (.getu 0x80000077 6 26) ∧
    decode {} { op := 0b00100, word := 0x03F00000, width := 6, lsb := 20 } = .ok (.gets 0x03F00000 6 20) ∧
    decode {} { op := 0b00101, word := 1, width := 2, lsb := 3, value := 4 } = .ok (.setu 1 2 3 4) ∧
    decode {} { op := 0b00110, word := 1, width := 2, lsb := 3, value := 0xFFFFFFFFFFFFFFFE } =
      .ok (.sets 1 2 3 0xFFFFFFFFFFFFFFFE) := by decide

theorem test_decode_color :
    decode {} { op := 0b01000, px0 := ⟨0x8000, 2, 3⟩, px1 := ⟨4, 5, 6⟩, den := 0xFFFF } = .ok (.norm ⟨32768, 2, 3⟩ 65535) ∧
    decode {} { op := 0b01001, n0 := 1, n1 := 2, n2 := 3, n3 := 4 } = .ok (.rgb2ypp 1 2 3) ∧
    decode {} { op := 0b01010, n0 := 1, n1 := 2, n2 := 3 } = .ok (.ypp2rgb 1 2 3) ∧
    decode {} { op := 0b01011, n0 := 1, n1 := 2, n2 := 3 } = .ok (.clamp01 1 2 3) ∧
    decode {} { op := 0b01100, n0 := 1, n1 := 2, n2 := 3, den := 255 } = .ok (.denorm 1 2 3 255) := by decide +kernel

theorem test_decode_transform :
    decode {} { op := 0b10000, n0 := 1, n1 := 2, n2 := 3, n3 := 4 } = .ok (.btfwd 1 2 3 4) ∧
    decode {} { op := 0b10001, n0 := 1, n1 := 2, n2 := 3, n3 := 4 } = .ok (.btinv 1 2 3 4) := by decide +kernel

/-- The same six bits are −32 for `DQDET` and 32 for `DQAVG` (R74). -/
theorem test_decode_quantizer :
    decode {} { op := 0b10100, n0 := 1, n1 := 2 } = .ok (.qavg 1) ∧
    decode {} { op := 0b10101, q := 0b100000 } = .ok (.dqavg 32) ∧
    decode {} { op := 0b10110, n0 := 1 } = .ok (.qdet 1) ∧
    decode {} { op := 0b10111, q := 0b100000 } = .ok (.dqdet (-32)) ∧
    decode {} { op := 0b10111, q := 0b111110 } = .ok (.dqdet (-2)) ∧
    decode {} { op := 0b11000, n0 := 1 } = .ok (.cidx 1) ∧
    decode {} { op := 0b11001, idx := 0b1111 } = .ok (.cval 15) := by decide +kernel

theorem test_decode_block :
    decode {} { op := 0b11100, px0 := ⟨1, 2, 3⟩, px1 := ⟨4, 5, 6⟩, px2 := ⟨7, 8, 9⟩, px3 := ⟨10, 11, 12⟩, den := 13 } =
      .ok (.blkenc ⟨1, 2, 3⟩ ⟨4, 5, 6⟩ ⟨7, 8, 9⟩ ⟨10, 11, 12⟩ 13) ∧
    decode {} { op := 0b11101, packed := 0x8033C777 } = .ok (.blkdec 0x8033C777) := by decide

/-- R73: the eleven reserved codes, and only those. -/
theorem test_decode_reserved : (List.range 32).filter (fun k => (decodeTableWord 8 k).isNone) =
    [0x00, 0x07, 0x0D, 0x0E, 0x0F, 0x12, 0x13, 0x1A, 0x1B, 0x1E, 0x1F] := by decide

/-! ### Single steps against the spec's vectors -/

/-- `NUM_Q` with the default tie rule and the fixture `T0`. -/
def t0 : Config := { num := .exactRational .halfAwayFromZero, chroma := .fixtureT0 }

/-- A block just reset, with that configuration. -/
def ready : State := freshBlock t0 []

/-- A halted block: a reserved op code was its first command. -/
def stuck : State :=
  { ready with halted := true, cause := .illegalOp, responses := [{ status := .illegalOp, ports := {} }] }

/-- What a command leaves: `halted`, `cause` and the responses. -/
def after (s : State) (i : Instr) : Option (Bool × Cause × List Response) :=
  match exec i s with
  | .next t => some (t.halted, t.cause, t.responses)
  | _ => none

/-- A command answered `OK` with these ports and nothing else. -/
def ok (r : Results) : Option (Bool × Cause × List Response) := some (false, .none, [{ status := .ok, ports := r }])

/-- A fatal fault. -/
def fatal (c : Cause) (st : Status) : Option (Bool × Cause × List Response) :=
  some (true, c, [{ status := st, ports := {} }])

/-- The recoverable Overflow. -/
def recoverable : Option (Bool × Cause × List Response) := some (false, .none, [{ status := .overflow, ports := {} }])

/-- Section 3.1. -/
theorem test_fitsu : after ready (.fitsu 63 6) = ok { fit := some true } ∧
    after ready (.fitsu 0x8000000000000000 63) = ok { fit := some false } := by decide +kernel

theorem test_fitsu_edges : after ready (.fitsu 0 0) = ok { fit := some true } ∧
    after ready (.fitsu 0xFFFFFFFFFFFFFFFF 200) = ok { fit := some true } := by decide +kernel

/-- Section 3.1: −32 fits 6 bits, −33 does not. -/
theorem test_fitss : after ready (.fitss 0xFFFFFFFFFFFFFFE0 6) = ok { fit := some true } ∧
    after ready (.fitss 0xFFFFFFFFFFFFFFDF 6) = ok { fit := some false } := by decide +kernel

theorem test_fitss_edges : after ready (.fitss 0 0) = ok { fit := some false } ∧
    after ready (.fitss 0x8000000000000000 64) = ok { fit := some true } := by decide +kernel

/-- Section 3.2. -/
theorem test_getu : after ready (.getu 0xDEADBEEFCAFEF00D 8 28) = ok { value := some 0xFC } ∧
    after ready (.getu 0xFFFFFFFFFFFFFFFF 64 0) = ok { value := some 0xFFFFFFFFFFFFFFFF } := by decide +kernel

theorem test_getu_edges : after ready (.getu 0xFFFFFFFFFFFFFFFF 0 64) = ok { value := some 0 } ∧
    after ready (.getu 0 1 64) = fatal .contractViolation .contractViolation := by decide +kernel

/-- Section 3.2. -/
theorem test_gets : after ready (.gets 0xDEADBEEFCAFEF00D 8 28) = ok { value := some 0xFFFFFFFFFFFFFFFC } ∧
    after ready (.gets 0xFFFFFFFFFFFFFFFF 0 17) = ok { value := some 0 } := by decide +kernel

theorem test_gets_edges : after ready (.gets 0x8000000000000000 64 0) = ok { value := some 0x8000000000000000 } ∧
    after ready (.gets 0 65 0) = fatal .contractViolation .contractViolation := by decide +kernel

/-- Section 3.3. -/
theorem test_setu : after ready (.setu 0xDEADBEEFCAFEF00D 8 28 0xA5) = ok { word := some 0xDEADBEEA5AFEF00D } ∧
    after ready (.setu 0x55 64 0 0xAA) = ok { word := some 0xAA } := by decide +kernel

/-- Section 3.3 and section 8: too large a value, and a malformed descriptor hiding it. -/
theorem test_setu_faults : after ready (.setu 0xDEADBEEFCAFEF00D 8 28 256) = recoverable ∧
    after ready (.setu 0 8 60 256) = fatal .contractViolation .contractViolation := by decide +kernel

/-- Section 3.3. -/
theorem test_sets : after ready (.sets 0xFFFFFFFFFFFFFFFF 3 61 0xFFFFFFFFFFFFFFFC) =
      ok { word := some 0x9FFFFFFFFFFFFFFF } ∧
    after ready (.sets 0xDEADBEEFCAFEF00D 8 28 0xFFFFFFFFFFFFFF80) = ok { word := some 0xDEADBEE80AFEF00D } := by
  decide +kernel

theorem test_sets_overflow : after ready (.sets 0xDEADBEEFCAFEF00D 8 28 128) = recoverable ∧
    after ready (.sets 0x1234 0 0 0) = recoverable := by decide +kernel

/-- R131's example, and section 8. -/
theorem test_norm : after ready (.norm ⟨255, 128, 0⟩ 255) = ok { m0 := some 1, m1 := some (128 / 255), m2 := some 0 } ∧
    after ready (.norm ⟨1, 1, 1⟩ 0) = fatal .domainFault .domainFault := by decide +kernel

/-- Section 4. -/
theorem test_rgb2ypp : after ready (.rgb2ypp (1 / 10) (1 / 5) (3 / 10)) =
    ok { m0 := some (363 / 2000), m1 := some (10449 / 156250), m2 := some (-9083 / 156250) } := by decide +kernel

/-- Section 4. -/
theorem test_ypp2rgb : after ready (.ypp2rgb (1 / 2) (1 / 10) (-1 / 10)) =
    ok { m0 := some (1799 / 5000), m1 := some (537 / 1000), m2 := some (1693 / 2500) } := by decide +kernel

/-- Section 4. -/
theorem test_clamp01 : after ready (.clamp01 (-1 / 10) (1 / 2) (3 / 2)) =
    ok { m0 := some 0, m1 := some (1 / 2), m2 := some 1 } := by decide +kernel

/-- Section 4. -/
theorem test_denorm : after ready (.denorm 1 (1 / 2) (999 / 1000) 255) = ok { px0 := some ⟨255, 127, 254⟩ } ∧
    after ready (.denorm (-1 / 1000) 0 0 255) = ok { px0 := some ⟨0, 0, 0⟩ } := by decide +kernel

/-- R135 with `CW` = 8: 255 fits the port and 256 does not. -/
theorem test_denorm_narrow :
    let s := freshBlock { t0 with widths := ⟨8, 8⟩ } []
    after s (.denorm 1 0 0 255) = ok { px0 := some ⟨255, 0, 0⟩ } ∧
    after s (.denorm 2 0 0 128) = fatal .domainFault .domainFault := by decide +kernel

theorem test_denorm_faults : after ready (.denorm (-1 / 100) 0 0 255) = fatal .domainFault .domainFault ∧
    after ready (.denorm 2 0 0 65535) = fatal .domainFault .domainFault := by decide +kernel

/-- Section 5. -/
theorem test_btfwd : after ready (.btfwd (363 / 2000) (963 / 2000) (1563 / 2000) (1837 / 2000)) =
    ok { m0 := some (2363 / 4000), m1 := some (1037 / 4000), m2 := some (437 / 4000), m3 := some (-163 / 4000) } := by
  decide +kernel

/-- Section 5. -/
theorem test_btinv : after ready (.btinv (37 / 63) (13 / 50) (1 / 10) (-1 / 25)) =
    ok { m0 := some (59 / 315), m1 := some (736 / 1575), m2 := some (248 / 315), m3 := some (1429 / 1575) } := by
  decide +kernel

/-- Section 6: a tie, and an average outside [0,1]. -/
theorem test_qavg : after ready (.qavg (1 / 2)) = ok { value := some 32 } ∧
    after ready (.qavg (-1 / 100)) = ok { value := some 0xFFFFFFFFFFFFFFFF } := by decide +kernel

/-- Section 6. -/
theorem test_dqavg : after ready (.dqavg 32) = ok { m0 := some (32 / 63) } := by decide +kernel

/-- Section 6: a tie below zero, and an inclusive bound. -/
theorem test_qdet : after ready (.qdet (-1 / 100)) = ok { value := some 0xFFFFFFFFFFFFFFFF } ∧
    after ready (.qdet (-3 / 10)) = ok { value := some 0xFFFFFFFFFFFFFFF1 } := by decide +kernel

theorem test_qdet_inside : after ready (.qdet (289 / 1000)) = ok { value := some 14 } ∧
    after ready (.qdet (301 / 1000)) = ok { value := some 15 } := by decide +kernel

/-- Section 6. -/
theorem test_dqdet : after ready (.dqdet (-32)) = ok { m0 := some (-16 / 25) } := by decide +kernel

/-- Section 1 (T0): a tie takes the lower index. -/
theorem test_cidx : after ready (.cidx 0) = ok { idx := some 7 } ∧
    after ready (.cidx (276 / 1000)) = ok { idx := some 15 } := by decide +kernel

/-- Section 1 (T0). -/
theorem test_cval : after ready (.cval 6) = ok { m0 := some (-33 / 1000) } := by decide +kernel

/-- Section 7, E3 (T0). -/
theorem test_blkenc : after ready (.blkenc ⟨10, 20, 30⟩ ⟨40, 50, 60⟩ ⟨70, 80, 90⟩ ⟨100, 90, 80⟩ 100) =
    ok { packed := some 0x94D17E96 } := by decide +kernel

/-- Section 7, E7 and E8: the Overflow is fatal here, and a zero denominator. -/
theorem test_blkenc_faults :
    after ready (.blkenc ⟨200, 200, 200⟩ ⟨200, 200, 200⟩ ⟨200, 200, 200⟩ ⟨200, 200, 200⟩ 100) =
      fatal .overflow .overflow ∧
    after ready (.blkenc ⟨1, 2, 3⟩ ⟨1, 2, 3⟩ ⟨1, 2, 3⟩ ⟨1, 2, 3⟩ 0) = fatal .domainFault .domainFault := by
  decide +kernel

/-- Section 7, D3 (T0). -/
theorem test_blkdec : after ready (.blkdec 0x94D17E96) =
    ok { px0 := some ⟨35, 50, 62⟩, px1 := some ⟨107, 122, 134⟩, px2 := some ⟨188, 203, 215⟩, px3 := some ⟨219, 234, 246⟩,
         den := some 255 } := by decide +kernel

/-- Section 7, D9 (T0): detail fields outside the encoder's range. -/
theorem test_blkdec_clamped : after ready (.blkdec 0x82082088) =
    ok { px0 := some ⟨255, 255, 255⟩, px1 := some ⟨255, 255, 255⟩, px2 := some ⟨255, 255, 255⟩, px3 := some ⟨0, 0, 0⟩,
         den := some 255 } := by decide +kernel

/-- Section 8: refused while halted, a reserved op code included. -/
theorem test_halted : after stuck (.fitsu 0 0) =
      some (true, .illegalOp, [{ status := .illegalOp, ports := {} }, Response.refusal]) ∧
    (advance { stuck with inputs := [.command { op := 0 }] }).responses =
      [{ status := .illegalOp, ports := {} }, Response.refusal] := by decide +kernel

/-- Section 10 (T0): the raster of that example, the stream's tag being one byte here. -/
theorem test_stream :
    encodeStream ⟨[0x41], false, false⟩ t0 ⟨5, 2, 255,
      [⟨128, 128, 128⟩, ⟨128, 128, 128⟩, ⟨255, 0, 0⟩, ⟨0, 255, 0⟩, ⟨9, 9, 9⟩,
       ⟨128, 128, 128⟩, ⟨128, 128, 128⟩, ⟨0, 0, 255⟩, ⟨255, 255, 255⟩, ⟨9, 9, 9⟩]⟩ =
      .ok [0x41, 0x20, 0x32, 0x20, 0x31, 0x0A, 0x80, 0x00, 0x00, 0x77, 0x80, 0x33, 0xC7, 0x77] ∧
    decodeStream ⟨[0x41], false, false⟩ t0
      [0x41, 0x20, 0x32, 0x20, 0x31, 0x0A, 0x80, 0x00, 0x00, 0x77, 0x80, 0x33, 0xC7, 0x77] =
      .ok ⟨4, 2, 255, [⟨125, 132, 124⟩, ⟨125, 132, 124⟩, ⟨69, 76, 68⟩, ⟨151, 157, 150⟩,
        ⟨125, 132, 124⟩, ⟨125, 132, 124⟩, ⟨28, 35, 27⟩, ⟨253, 255, 252⟩]⟩ := by decide +kernel

/-- Section 10: the stream errors; and the model's own, for a denominator wider than its port (notes/assumptions/16.md). -/
theorem test_stream_errors :
    encodeStream ⟨[0x41], false, false⟩ t0 ⟨2, 2, 65536, List.replicate 4 ⟨0, 0, 0⟩⟩ = .error .doesNotFitPort ∧
    decodeStream ⟨[0x41], false, false⟩ t0 [0x41, 0x20, 0x32, 0x20, 0x31, 0x0A, 0, 0, 0, 0x77, 0, 0, 0] =
      .error .truncatedStream ∧
    decodeStream ⟨[0x41], false, false⟩ t0 [0x41, 0x20, 0x30, 0x20, 0x31, 0x0A] = .error .invalidDimensions ∧
    decodeStream ⟨[0x41], false, false⟩ t0 [0x42, 0x20, 0x31, 0x20, 0x31, 0x0A] = .error .malformedHeader := by
  decide +kernel

/-! ### For every statement with hypotheses, a state and operands that meet them, each clause at a bound of its range

A witness is named after its statement. `next_of` gives the next state that a hypothesis asks for. -/

/-- A block whose host has issued one command. -/
def given (p : Ports) : State := { ready with inputs := [.command p] }

/-- A halted block that the host resets, abandoning a command. -/
def resetting : State := { stuck with inputs := [.reset [{ op := 0x01 }], .command { op := 0x02 }] }

/-- What `exec` answers, as a state. -/
def next_of (i : Instr) (s : State) : State :=
  match exec i s with
  | .next t => t
  | .fault _ => s
  | .refused _ => s

theorem witness_ResetEventClearsTheLatches :
    resetting.inputs = .reset [{ op := 0x01 }] :: [.command { op := 0x02 }] := rfl

theorem witness_OnlyResetLeavesHalted :
    step resetting = .next (advance resetting) ∧ resetting.halted = true ∧ (advance resetting).halted = false :=
  ⟨rfl, rfl, rfl⟩

theorem witness_ConfigurationNeverChanges : step resetting = .next (advance resetting) := rfl

theorem witness_DecodeOfEncode :
    (Instr.setu 0xFFFFFFFFFFFFFFFF 255 255 0xFFFFFFFFFFFFFFFF).wellFormed {} = true ∧
    (Instr.norm ⟨65535, 65535, 65535⟩ 65535).wellFormed {} = true ∧ (Instr.dqavg 63).wellFormed {} = true ∧
    (Instr.dqdet (-32)).wellFormed {} = true ∧ (Instr.dqdet 31).wellFormed {} = true := by decide

theorem witness_EncodeOfDecode :
    decode {} { op := 0x17, q := 0b100000, word := 5, n0 := 7 } = .ok (.dqdet (-32)) := by decide

theorem witness_ReservedOpsRaiseIllegalOp :
    (given { op := 0x1F }).inputs = .command { op := 0x1F } :: [] ∧ (given { op := 0x1F }).halted = false ∧
    (given { op := 0x1D }).inputs = .command { op := 0x1D } :: [] ∧ (given { op := 0x1D }).halted = false :=
  ⟨rfl, rfl, rfl, rfl⟩

theorem witness_UnreadPortsAreIgnored :
    let p : Ports := { op := 0x01, value := 3, width := 2, lsb := 255, word := 9, n0 := 1, packed := 7 }
    let p' : Ports := { op := 0x01, value := 3, width := 2 }
    p ≠ p' ∧ p.op = p'.op ∧ ∀ c ∈ opReads p.op, p.sameOn ready.cfg.widths p' c = true := by decide +kernel

theorem witness_StepRunsTheDecodedCommand :
    (given { op := 0x01, value := 3, width := 2 }).inputs = .command { op := 0x01, value := 3, width := 2 } :: [] ∧
    decode {} { op := 0x01, value := 3, width := 2 } = .ok (.fitsu 3 2) ∧ ready.inputs = [] := by decide +kernel

theorem witness_HaltedRefusesEveryCommand :
    let s : State := { stuck with inputs := [.command { op := 0x00 }] }
    s.halted = true ∧ s.inputs = .command { op := 0x00 } :: [] := ⟨rfl, rfl⟩

theorem witness_FatalFaultEntry :
    let s := given { op := 0x03, width := 1, lsb := 64 }
    s.inputs = .command { op := 0x03, width := 1, lsb := 64 } :: [] ∧ s.halted = false ∧
      step s = .next (advance s) ∧ (advance s).halted = true := ⟨rfl, rfl, rfl, rfl⟩

theorem witness_OneResponsePerCommandAndFrame :
    let s := given { op := 0x01, value := 3, width := 2 }
    s.inputs = .command { op := 0x01, value := 3, width := 2 } :: [] ∧ step s = .next (advance s) := ⟨rfl, rfl⟩

theorem witness_OkDrivesTheTablesPorts :
    ready.halted = false ∧ exec (.fitsu 3 2) ready = .next (next_of (.fitsu 3 2) ready) ∧
    (next_of (.fitsu 3 2) ready).responses = ready.responses ++ [{ status := .ok, ports := { fit := some true } }] :=
  ⟨rfl, rfl, rfl⟩

/-- One command for each fault kind. -/
theorem witness_FaultsComeOnlyFromTheirCommands :
    ready.halted = false ∧
    (exec (.setu 0 6 26 64) ready = .next (next_of (.setu 0 6 26 64) ready) ∧
      (next_of (.setu 0 6 26 64) ready).responses = ready.responses ++ [{ status := .overflow, ports := {} }]) ∧
    (exec (.getu 0 1 64) ready = .next (next_of (.getu 0 1 64) ready) ∧
      (next_of (.getu 0 1 64) ready).responses =
        ready.responses ++ [{ status := .contractViolation, ports := {} }]) ∧
    (exec (.norm ⟨1, 1, 1⟩ 0) ready = .next (next_of (.norm ⟨1, 1, 1⟩ 0) ready) ∧
      (next_of (.norm ⟨1, 1, 1⟩ 0) ready).responses =
        ready.responses ++ [{ status := .domainFault, ports := {} }]) :=
  ⟨rfl, ⟨rfl, by decide +kernel⟩, ⟨rfl, by decide +kernel⟩, ⟨rfl, by decide +kernel⟩⟩

/-- The last legal descriptor and the first malformed one. -/
theorem witness_ContractViolationExactlyOnMalformedDescriptor :
    ready.halted = false ∧ ¬ (64 < 1 ∨ 64 < 1 + 63) ∧ (64 < 1 ∨ 64 < 1 + 64) ∧ (64 < 65 ∨ 64 < 65 + 0) := by
  decide

/-- The bounds of a `DENORM` lane: a truncated product of −1 or 65536 faults and of 65535 does not. The bounds of `QAVG`. A
zero denominator, and a pixel of a block with very wide ports whose average has no 64-bit image. -/
theorem witness_DomainFaultExactlyUnderNumQ :
    let wide : State := freshBlock { t0 with widths := ⟨8, 64⟩ } []
    let px : Pixel := ⟨2 ^ 63, 2 ^ 63, 2 ^ 63⟩
    ready.halted = false ∧ ready.cfg.num = .exactRational .halfAwayFromZero ∧ ready.cfg.widths.legal = true ∧
    (Instr.denorm (-1) 0 65536 1).wellFormed {} = true ∧
    ((-1 : Rat) * 1 ≤ -1 ∧ (2 : Rat) ^ 16 ≤ 65536 * 1 ∧ ¬ ((-1 / 2 : Rat) * 1 ≤ -1) ∧ ¬ ((2 : Rat) ^ 16 ≤ 65535 * 1)) ∧
    ((2 : Int) ^ 63 ≤ froundQ .halfAwayFromZero (2 ^ 63 / 63 * 63) ∧
      ¬ (2 : Int) ^ 63 ≤ froundQ .halfAwayFromZero ((2 ^ 63 - 1) / 63 * 63)) ∧
    ((Instr.norm ⟨1, 1, 1⟩ 0).wellFormed {} = true ∧ ready.cfg.widths.cw ≤ 57) ∧
    (wide.halted = false ∧ wide.cfg.num = .exactRational .halfAwayFromZero ∧ wide.cfg.widths.legal = true ∧
      (Instr.blkenc px px px px 1).wellFormed wide.cfg.widths = true ∧
      2 ^ 63 ≤ froundQ .halfAwayFromZero
        ((exactLuma px + exactLuma px + exactLuma px + exactLuma px) / (4 * (1 : Nat)) * 63)) := by decide +kernel

/-- `FITSU`, `FITSS`: a block that is not halted and ports with their op codes. -/
theorem witness_FitsuCompletes : ready.halted = false ∧ ({ op := 0x01, width := 255 } : Ports).op = 0x01 := ⟨rfl, rfl⟩

theorem witness_FitssCompletes : ready.halted = false ∧ ({ op := 0x02, width := 255 } : Ports).op = 0x02 := ⟨rfl, rfl⟩

theorem witness_GetuCompletes : ready.halted = false ∧ ({ op := 0x03 } : Ports).op = 0x03 ∧ 0 + 64 ≤ 64 ∧ 64 < 1 + 64 := by
  decide

/-- Width 0 and width 1, at the last legal offsets. -/
theorem witness_GetsCompletes : ready.halted = false ∧ ({ op := 0x04 } : Ports).op = 0x04 ∧ 0 + 64 ≤ 64 ∧ 1 + 63 ≤ 64 ∧
    0 < 1 ∧ 64 < 2 + 63 := by decide

/-- A malformed descriptor; 64 does not fit 6 bits; 63 does; 0 fits 0 bits at offset 64. -/
theorem witness_SetuCompletes : ready.halted = false ∧ ({ op := 0x05 } : Ports).op = 0x05 ∧ 64 < 8 + 60 ∧ 6 + 58 ≤ 64 ∧
    ¬ (64 : Word).toNat < 2 ^ 6 ∧ (63 : Word).toNat < 2 ^ 6 ∧ 0 + 64 ≤ 64 ∧ (0 : Word).toNat < 2 ^ 0 := by decide

/-- −33 does not fit 6 bits, nothing fits 0 bits; −32 and 31 fit 6 bits. -/
theorem witness_SetsCompletes : ready.halted = false ∧ ({ op := 0x06 } : Ports).op = 0x06 ∧ 64 < 65 + 0 ∧ 6 + 58 ≤ 64 ∧
    ¬ (0 < 6 ∧ -(2 ^ (6 - 1) : Int) ≤ (0xFFFFFFFFFFFFFFDF : Word).toInt ∧
      (0xFFFFFFFFFFFFFFDF : Word).toInt < 2 ^ (6 - 1)) ∧
    ¬ (0 < 0 ∧ -(2 ^ (0 - 1) : Int) ≤ (0 : Word).toInt ∧ (0 : Word).toInt < 2 ^ (0 - 1)) ∧
    (-(2 ^ (6 - 1) : Int) ≤ (0xFFFFFFFFFFFFFFE0 : Word).toInt ∧ (0xFFFFFFFFFFFFFFE0 : Word).toInt < 2 ^ (6 - 1)) ∧
    (-(2 ^ (6 - 1) : Int) ≤ (31 : Word).toInt ∧ (31 : Word).toInt < 2 ^ (6 - 1)) := by decide

theorem witness_GetuAfterSetu : ready.halted = false ∧ 6 + 58 ≤ 64 ∧ (63 : Word).toNat < 2 ^ 6 := by decide

theorem witness_GetsAfterSets : ready.halted = false ∧ 6 + 58 ≤ 64 ∧ 0 < 6 ∧
    -(2 ^ (6 - 1) : Int) ≤ (0xFFFFFFFFFFFFFFE0 : Word).toInt ∧ (0xFFFFFFFFFFFFFFE0 : Word).toInt < 2 ^ (6 - 1) := by
  decide

/-- One witness per clause: adjacent fields at the top of the Word, one of each kind; a field read; a signed field read; a field
set by each kind. -/
theorem witness_FieldSetLaws :
    (4 + 60 ≤ 64 ∧ 4 + 56 ≤ 64 ∧ (60 + 4 ≤ 56 ∨ 56 + 4 ≤ 60) ∧ setBy false 0 4 60 9 = .ok 0x9000000000000000 ∧
      setBy true 0x9000000000000000 4 56 3 = .ok 0x9300000000000000 ∧ setBy true 0 4 56 3 = .ok 0x0300000000000000 ∧
      setBy false 0x0300000000000000 4 60 9 = .ok 0x9300000000000000) ∧
    getU 0x80000077 6 26 = .ok 32 ∧ (0 < 6 ∧ getS 0x03F00000 6 20 = .ok 0xFFFFFFFFFFFFFFFF) ∧
    setBy false 0 6 26 63 = .ok 0xFC000000 ∧ setBy true 0 6 26 0xFFFFFFFFFFFFFFFF = .ok 0xFC000000 := by decide +kernel

theorem witness_NormCompletes : ready.halted = false ∧ ({ op := 0x08 } : Ports).op = 0x08 ∧ (0 : Nat) = 0 ∧ (1 : Nat) ≠ 0 ∧
    ready.cfg.num = .exactRational .halfAwayFromZero := by decide

theorem witness_Rgb2yppCompletes : ready.halted = false ∧ ({ op := 0x09 } : Ports).op = 0x09 ∧
    ready.cfg.num = .exactRational .halfAwayFromZero := by decide

theorem witness_LumaChromaRanges : (0 : Rat) ≤ 0 ∧ (0 : Rat) ≤ 1 ∧ (0 : Rat) ≤ 1 ∧ (1 : Rat) ≤ 1 := by norm_num

theorem witness_Ypp2rgbCompletes : ready.halted = false ∧ ({ op := 0x0A } : Ports).op = 0x0A ∧
    ready.cfg.num = .exactRational .halfAwayFromZero := by decide

/-- The three kinds of lane, at the bounds: −1 is below 0; 2 is above 1; 0 and 1 are neither. -/
theorem witness_Clamp01Completes : ready.halted = false ∧ ({ op := 0x0B } : Ports).op = 0x0B ∧
    ready.cfg.num = .exactRational .halfAwayFromZero ∧
    ((numOf t0).lt ((numOf t0).fint 1) ((numOf t0).fint 0) = false ∧
      (numOf t0).gt ((numOf t0).fint 0) ((numOf t0).fint 1) = false) ∧
    (numOf t0).lt (-1) ((numOf t0).fint 0) = true ∧
    ((numOf t0).lt 2 ((numOf t0).fint 0) = false ∧ (numOf t0).gt 2 ((numOf t0).fint 1) = true) ∧
    ((numOf t0).lt 0 ((numOf t0).fint 0) = false ∧ (numOf t0).gt 0 ((numOf t0).fint 1) = false) ∧
    ((numOf t0).lt 1 ((numOf t0).fint 0) = false ∧ (numOf t0).gt 1 ((numOf t0).fint 1) = false) := by decide +kernel

/-- The port's bounds 0 and 65535; and a lane that truncates to −1. -/
theorem witness_DenormCompletes : ready.halted = false ∧ ({ op := 0x0C } : Ports).op = 0x0C ∧
    ((numOf t0).ftrunc ((numOf t0).mul (-1 / 2) ((numOf t0).fint 1)) = some 0 ∧
      (numOf t0).ftrunc ((numOf t0).mul (65535 + 1 / 2) ((numOf t0).fint 1)) = some 65535 ∧
      ∀ t ∈ [(0 : Int), 65535, 65535], 0 ≤ t ∧ t ≤ 2 ^ ready.cfg.widths.cw - 1) ∧
    ((numOf t0).ftrunc ((numOf t0).mul (-1) ((numOf t0).fint 1)) = some (-1) ∧ (-1 : Int) < 0) := by decide +kernel

theorem witness_DenormTruncatesAndUndoesNorm : ready.halted = false ∧
    ready.cfg.num = .exactRational .halfAwayFromZero ∧
    (∀ x ∈ [(-1 / 2 : Rat), 0, 65535 + 1 / 2], -1 < x * (1 : Nat) ∧ x * (1 : Nat) < 2 ^ ready.cfg.widths.cw) ∧
    Pixel.fits ready.cfg.widths ⟨65535, 0, 1⟩ = true ∧ (1 : Nat) ≠ 0 := by
  have h : ready.cfg.widths.cw = 16 := rfl
  refine ⟨rfl, rfl, ?_, by decide, by decide⟩
  rw [h]
  norm_num

theorem witness_BtfwdCompletes : ready.halted = false ∧ ({ op := 0x10 } : Ports).op = 0x10 ∧
    ready.cfg.num = .exactRational .halfAwayFromZero := by decide

theorem witness_BtinvCompletes : ready.halted = false ∧ ({ op := 0x11 } : Ports).op = 0x11 ∧
    ready.cfg.num = .exactRational .halfAwayFromZero := by decide

/-- The last product with a 64-bit image and the first without one. -/
theorem witness_QavgCompletes : ready.halted = false ∧ ({ op := 0x14 } : Ports).op = 0x14 ∧
    ((numOf t0).fround ((numOf t0).mul ((2 ^ 63 - 1) / 63) ((numOf t0).fint 63)) = some (2 ^ 63 - 1) ∧
      -(2 ^ 63 : Int) ≤ 2 ^ 63 - 1) ∧
    ((numOf t0).fround ((numOf t0).mul (2 ^ 63 / 63) ((numOf t0).fint 63)) = some (2 ^ 63) ∧
      (2 ^ 63 - 1 : Int) < 2 ^ 63) := by decide +kernel

theorem witness_QavgRoundsToNearest : ready.halted = false ∧ ready.cfg.num = .exactRational .halfAwayFromZero ∧
    |(1 / 2 : Rat)| ≤ 2 ^ 56 ∧ |(1 / 2 * 63 : Rat) - (32 : Int)| = 1 / 2 ∧ (0 : Rat) ≤ 1 ∧ (63 : Nat) ≤ 63 := by
  refine ⟨rfl, rfl, ?_, ?_, by norm_num, by norm_num⟩
  · rw [abs_of_pos (by norm_num)]; norm_num
  · rw [abs_sub_comm, abs_of_pos (by norm_num)]; norm_num

theorem witness_DqavgCompletes : ready.halted = false ∧ ({ op := 0x15, q := 63 } : Ports).op = 0x15 ∧
    ready.cfg.num = .exactRational .halfAwayFromZero := by decide

/-- Both inclusive bounds and a value between them. -/
theorem witness_QdetCompletes : ready.halted = false ∧ ({ op := 0x16 } : Ports).op = 0x16 ∧
    (numOf t0).le (-3 / 10) ((numOf t0).flit ⟨-3, 1⟩) = true ∧
    ((numOf t0).le (3 / 10) ((numOf t0).flit ⟨-3, 1⟩) = false ∧
      (numOf t0).ge (3 / 10) ((numOf t0).flit ⟨3, 1⟩) = true) ∧
    ((numOf t0).le (299 / 1000) ((numOf t0).flit ⟨-3, 1⟩) = false ∧
      (numOf t0).ge (299 / 1000) ((numOf t0).flit ⟨3, 1⟩) = false) := by decide +kernel

theorem witness_QdetSaturatesAndIsMonotone : ready.halted = false ∧ ready.cfg.num = .exactRational .halfAwayFromZero ∧
    (-3 / 10 : Rat) ≤ 3 / 10 ∧ |(3 / 10 : Rat)| ≤ 3 / 10 := by
  refine ⟨rfl, rfl, by norm_num, ?_⟩
  rw [abs_of_pos (by norm_num)]

theorem witness_DqdetCompletes : ready.halted = false ∧ ({ op := 0x17, q := 0b100000 } : Ports).op = 0x17 ∧
    ready.cfg.num = .exactRational .halfAwayFromZero := by decide

theorem witness_QdetUndoesDqdet : ready.halted = false ∧ ready.cfg.num = .exactRational .halfAwayFromZero := by decide

theorem witness_ChromaTableCompletes : ready.halted = false ∧ ({ op := 0x18 } : Ports).op = 0x18 ∧
    ({ op := 0x19, idx := 15 } : Ports).op = 0x19 := by decide

/-- E1: the fields fit; E7: the average is 126; a component without bound: the average has no 64-bit image. -/
theorem witness_BlkencPacksTheSixFields :
    let N := numOf t0
    let t : Nat → Nat → Triple := fun c den => toLumaChroma N ⟨N.div (N.fint c) (N.fint den), N.div (N.fint c) (N.fint den),
      N.div (N.fint c) (N.fint den)⟩
    let k : Nat → Nat → Quad := fun c den =>
      forwardTransform N ⟨(t c den).x0, (t c den).x0, (t c den).x0, (t c den).x0⟩
    ready.halted = false ∧ N = numOf ready.cfg ∧ ({ op := 0x1C } : Ports).op = 0x1C ∧
    ((255 : Nat) ≠ 0 ∧ quantizeAverage N (k 128 255).x0 = .ok 32 ∧ quantizeDetail N (k 128 255).x1 = .ok 0 ∧
      quantizeDetail N (k 128 255).x2 = .ok 0 ∧ quantizeDetail N (k 128 255).x3 = .ok 0 ∧
      fitsU 32 6 = true ∧ fitsS 0 6 = true) ∧
    ((100 : Nat) ≠ 0 ∧ quantizeAverage N (k 200 100).x0 = .ok 126 ∧ quantizeDetail N (k 200 100).x1 = .ok 0 ∧
      quantizeDetail N (k 200 100).x2 = .ok 0 ∧ quantizeDetail N (k 200 100).x3 = .ok 0 ∧
      ¬ (fitsU 126 6 = true ∧ fitsS 0 6 = true ∧ fitsS 0 6 = true ∧ fitsS 0 6 = true)) ∧
    ((1 : Nat) ≠ 0 ∧ quantizeAverage N (k (2 ^ 63) 1).x0 = raiseDomainFault) :=
  ⟨rfl, rfl, rfl, by decide +kernel, by decide +kernel, by decide +kernel⟩

/-- Components at 0 and at the denominator. -/
theorem witness_BlkencNeverFailsInNormalOperation : ready.halted = false ∧
    ready.cfg.num = .exactRational .halfAwayFromZero ∧ (255 : Nat) ≠ 0 ∧ normalPixel 255 ⟨255, 0, 255⟩ ∧
    normalPixel 255 ⟨0, 0, 0⟩ := by
  refine ⟨rfl, rfl, by decide, ⟨by decide, by decide, by decide⟩, ⟨by decide, by decide, by decide⟩⟩

theorem witness_UnpackReturnsTheEncodedFields : ready.halted = false ∧
    exec (.blkenc ⟨10, 20, 30⟩ ⟨40, 50, 60⟩ ⟨70, 80, 90⟩ ⟨100, 90, 80⟩ 100) ready =
      .next (completed ready { packed := some 0x94D17E96 }) :=
  ⟨rfl, congrArg Host.Outcome.next (show finish ready _ = _ by decide +kernel)⟩

theorem witness_BlkencOfAGrayBlock : ready.halted = false ∧ ready.cfg.num = .exactRational .halfAwayFromZero ∧
    (65535 : Nat) ≠ 0 ∧ 65535 ≤ 65535 := by decide

/-- The hypotheses only name the parts of the computation. -/
theorem witness_BlkdecComputesEachPixel :
    ready.halted = false ∧ numOf t0 = numOf ready.cfg ∧ chromaOfConfig t0 = chromaOfConfig ready.cfg ∧
    ({ op := 0x1D } : Ports).op = 0x1D := ⟨rfl, rfl, rfl, rfl⟩

theorem witness_BlkdecDecodesEveryWord : ready.halted = false ∧ ready.cfg.num = .exactRational .halfAwayFromZero ∧
    ready.cfg.widths.legal = true ∧ Widths.legal ⟨7, 8⟩ = true := by decide

/-- A legal state that is halted and has refused a command, with a command still to come. -/
theorem witness_StepsKeepTheStateLegal :
    let s : State := { stuck with responses := stuck.responses ++ [Response.refusal], inputs := [.command { op := 0x01 }] }
    Legal s ∧ GoneWrong s ∧ step s = .next (advance s) := by
  refine ⟨⟨by simp [latchesAgree, stuck], ?_, ?_, ?_, rfl⟩, ⟨Response.refusal, by simp, rfl⟩, rfl⟩
  · exact ⟨[], _, [Response.refusal], rfl, by simp, rfl, by simp⟩
  all_goals
    intro r hr
    simp only [stuck, List.cons_append, List.nil_append, List.mem_cons, List.not_mem_nil, or_false] at hr
    rcases hr with rfl | rfl
  · exact fun _ => rfl
  · exact fun _ => rfl
  · rfl
  · rfl

/-- A fatal fault between two good commands, and a reset after them. -/
theorem witness_RunsAnswerCommandsInOrder :
    let cmds : List Ports := [{ op := 0x01 }, { op := 0x00 }, { op := 0x02 }]
    let s : State := { ready with inputs := cmds.map .command ++ [.reset []] }
    s.inputs = cmds.map .command ++ [.reset []] := rfl

/-- Two blocks that take turns, and the second has a turn for each of its two commands. -/
theorem witness_InstancesShareNothing :
    let s : State := { ready with inputs := [.command { op := 0x01 }, .command { op := 0x00 }, .reset []] }
    [stuck, s][1]? = some s ∧ s.inputs = [{ op := 0x01 }, { op := 0x00 }].map .command ++ [.reset []] ∧
      [1, 0, 1].count 1 = [({ op := 0x01 } : Ports), { op := 0x00 }].length := ⟨rfl, rfl, rfl⟩

/-- The header `A 2 1`, and each way the other clauses ask for; a body that begins with a space is no newline and no digit. -/
theorem witness_HeadersAreReadBack : (2 : Nat) ≠ 0 ∧ (1 : Nat) ≠ 0 ∧ ((0 : Nat) = 0 ∨ (1 : Nat) = 0) ∧
    (¬ ([0x41#8] ++ [0x20]) <+: [0x42#8, 0x20]) ∧
    ∀ b ∈ ([0x20#8] : List Byte).head?, b ≠ 0x0A ∧ isDigit b = false := by decide

/-- One byte short of one word, and exactly one word. -/
theorem witness_ShortBodiesAreTruncated :
    (parseHeader ⟨[0x41], false, false⟩ [0x41, 0x20, 0x31, 0x20, 0x31, 0x0A, 1, 2, 3] = .ok (1, 1, [1, 2, 3]) ∧
      [1, 2, 3].length < 4 * (1 * 1)) ∧
    (parseHeader ⟨[0x41], false, false⟩ [0x41, 0x20, 0x31, 0x20, 0x31, 0x0A, 1, 2, 3, 4] = .ok (1, 1, [1, 2, 3, 4]) ∧
      4 * (1 * 1) ≤ [1, 2, 3, 4].length) := by decide

/-- A 3×2 raster at the bounds of its denominator. -/
theorem witness_EncodeThenDecodeSucceeds :
    let r : Raster := ⟨3, 2, 65535, [⟨65535, 0, 0⟩, ⟨0, 0, 0⟩, ⟨1, 2, 3⟩, ⟨4, 5, 6⟩, ⟨65535, 65535, 65535⟩, ⟨7, 8, 9⟩]⟩
    t0.num = .exactRational .halfAwayFromZero ∧ t0.widths.legal = true ∧ r.den ≠ 0 ∧ r.den < 2 ^ t0.widths.cw ∧ (∀ p ∈ r.pixels, normalPixel r.den p) ∧
      2 ≤ r.width ∧ 2 ≤ r.height := by
  refine ⟨rfl, rfl, by decide, by decide, ?_, by decide, by decide⟩
  simp [normalPixel]

end Sys2Proof.Tests
end

section
/-! The invariant of R21, R25, R27, R45, R74, R207 and R209: each way a step can end keeps a state legal. -/

namespace Sys2Proof.Machine

variable {s t : State} {r : Response}

/-! ### The parts of `Legal`, by what the latch and the newest response say -/

theorem responsesTellLatches_running (h : s.halted = false) :
    responsesTellLatches s ↔ ∀ r ∈ s.responses, r.harmless = true := by
  simp [responsesTellLatches, h]

theorem responsesTellLatches_halted (h : s.halted = true) :
    responsesTellLatches s ↔ ∃ before first after, s.responses = before ++ first :: after ∧
      (∀ r ∈ before, r.harmless = true) ∧ statusCode first.status = causeCode s.cause ∧
      (∀ r ∈ after, r = Response.refusal) := by
  simp [responsesTellLatches, h]

theorem onlyOkDrives_append (h : t.responses = s.responses ++ [r]) :
    onlyOkDrives t ↔ onlyOkDrives s ∧ (r.status ≠ .ok → r.ports.driven = []) := by
  simp only [onlyOkDrives, h, List.forall_mem_append, List.forall_mem_singleton]

theorem resultsFit_append (hc : t.cfg = s.cfg) (h : t.responses = s.responses ++ [r]) :
    resultsFit t ↔ resultsFit s ∧ r.ports.fitsPorts s.cfg.widths = true := by
  simp only [resultsFit, h, hc, List.forall_mem_append, List.forall_mem_singleton]

/-- No port is driven, so every driven port fits (R27). -/
@[simp] theorem fitsPorts_nothing (pw : Widths) : Results.fitsPorts pw {} = true := rfl

/-- One more response keeps a state legal when it is sound itself and still tells the latches' story. -/
theorem legal_append (hs : Legal s) (hc : t.cfg = s.cfg) (h : t.responses = s.responses ++ [r])
    (hdrives : r.status ≠ .ok → r.ports.driven = []) (hfits : r.ports.fitsPorts s.cfg.widths = true)
    (hlatches : latchesAgree t) (htell : responsesTellLatches t) : Legal t := by
  obtain ⟨-, -, hdrive, hfit, hwidths⟩ := hs
  exact ⟨hlatches, htell, (onlyOkDrives_append h).2 ⟨hdrive, hdrives⟩, (resultsFit_append hc h).2 ⟨hfit, hfits⟩,
    by rwa [hc]⟩

/-! ### Each way a step can end -/

/-- `Legal` says nothing of the input still to come (R28). -/
theorem legal_withInputs (hs : Legal s) (rest : List HostEvent) : Legal { s with inputs := rest } := hs

/-- A harmless response leaves a running block legal (R27, R206). -/
theorem legal_respond {st : Status} {ports : Results} (hs : Legal s) (hh : s.halted = false)
    (hharmless : Response.harmless ⟨st, ports⟩ = true) (hdrives : st ≠ .ok → ports.driven = [])
    (hfits : ports.fitsPorts s.cfg.widths = true) : Legal (respond s st ports) := by
  have ⟨hlatches, htell, _⟩ := hs
  refine legal_append hs rfl rfl hdrives hfits hlatches ?_
  rw [responsesTellLatches_running hh] at htell
  rw [responsesTellLatches_running (s := respond s st ports) hh, respond_responses, List.forall_mem_append,
    List.forall_mem_singleton]
  exact ⟨htell, hharmless⟩

/-- The first fatal fault closes the harmless responses and latches its own code (R207). -/
theorem legal_enterFatal (hs : Legal s) (hh : s.halted = false) (k : FatalKind) : Legal (enterFatal s k) := by
  have ⟨_, htell, _⟩ := hs
  refine legal_append hs rfl rfl (fun _ => driven_nothing) (fitsPorts_nothing _) ?_ ?_
  · simp [latchesAgree, fatalCause_ne_none]
  · exact (responsesTellLatches_halted rfl).2
      ⟨s.responses, _, [], rfl, (responsesTellLatches_running hh).1 htell, fatal_codes_agree k, by simp⟩

/-- A refusal is one more after the first fatal fault (R209). -/
theorem legal_refuseHalted (hs : Legal s) (hh : s.halted = true) : Legal (refuseHalted s) := by
  have ⟨hlatches, htell, _⟩ := hs
  refine legal_append hs rfl (refuseHalted_responses s) (fun _ => driven_nothing) (fitsPorts_nothing _) hlatches ?_
  obtain ⟨before, first, after, hresp, hbefore, hfirst, hafter⟩ := (responsesTellLatches_halted hh).1 htell
  refine (responsesTellLatches_halted (s := refuseHalted s) hh).2
    ⟨before, first, after ++ [Response.refusal], by simp [hresp], hbefore, hfirst, ?_⟩
  rw [List.forall_mem_append, List.forall_mem_singleton]
  exact ⟨hafter, rfl⟩

/-- Reset clears the latches and the responses and keeps the port widths (R230, R231). -/
theorem legal_resetBlock (hs : Legal s) : Legal (resetBlock s) := by
  obtain ⟨-, -, -, -, hwidths⟩ := hs
  refine ⟨?_, ?_, ?_, ?_, hwidths⟩
  · simp [latchesAgree]
  · simp [responsesTellLatches_running (resetBlock_halted s)]
  · simp [onlyOkDrives]
  · simp [resultsFit]

/-- The end of a command keeps a state legal when the ports it drives fit (R205). -/
theorem legal_finish {res : Result Results} (hs : Legal s)
    (hfits : ∀ ports, res = .ok ports → ports.fitsPorts s.cfg.widths = true) : Legal (finish s res) := by
  obtain ⟨hh, e⟩ | ⟨hh, ⟨ports, hres, e⟩ | ⟨-, e⟩ | ⟨k, -, e⟩⟩ := finish_cases s res <;> rw [e]
  · exact legal_refuseHalted hs hh
  · exact legal_respond hs hh rfl (fun h => absurd rfl h) (hfits ports hres)
  · exact legal_respond hs hh rfl (fun _ => driven_nothing) (fitsPorts_nothing _)
  · exact legal_enterFatal hs hh k

/-- What a port bundle computes fits the result ports (R27, R74). -/
theorem portsResult_fits {c : Config} {p : Ports} {ports : Results} (hw : c.widths.legal = true)
    (h : portsResult c p = .ok ports) : ports.fitsPorts c.widths = true := by
  unfold portsResult at h
  split at h
  · exact resultOf_fits hw h
  · cases h

/-! ### The two claims -/

theorem step_keeps_legal (hs : Legal s) (h : step s = .next t) : Legal t := by
  have ⟨_, _, _, _, hwidths⟩ := hs
  obtain ⟨-, e⟩ | ⟨p, rest, -, e⟩ | ⟨a, rest, -, e⟩ := step_cases s <;> rw [e] at h <;> cases h
  · exact hs
  · exact legal_finish (legal_withInputs hs rest) fun _ => portsResult_fits hwidths
  · exact legal_resetBlock (legal_withInputs hs rest)

/-- A running block's responses are harmless, and a `HALTED` response is not (R209). -/
theorem halted_of_goneWrong (hs : Legal s) (hg : GoneWrong s) : s.halted = true := by
  obtain ⟨-, htell, -⟩ := hs
  obtain ⟨r, hr, hst⟩ := hg
  by_contra hh
  have hharmless := (responsesTellLatches_running (Bool.eq_false_iff.2 hh)).1 htell r hr
  simp [Response.harmless, hst] at hharmless

/-- Settles O53, by cases on everything a step can do, one preservation lemma for each way it ends. -/
theorem stepsKeepTheStateLegal : Obligations.StepsKeepTheStateLegal :=
  ⟨fun _ _ => step_keeps_legal, fun _ => halted_of_goneWrong⟩

end Sys2Proof.Machine
end

section
/-! Decoding the ports that the encoder drives (R71, R72, R74): for any command at all it gives what the ports carry of the
command's operands, and a well-formed command is carried whole. -/

namespace Sys2Proof

variable {pw : Widths} {i : Instr}

/-- What the operand ports carry of a command: each integer operand cut to its port (R26, R74). -/
def Instr.carried (pw : Widths) : Instr → Instr
  | .fitsu value width => .fitsu value (pw.desc width)
  | .fitss value width => .fitss value (pw.desc width)
  | .getu word width lsb => .getu word (pw.desc width) (pw.desc lsb)
  | .gets word width lsb => .gets word (pw.desc width) (pw.desc lsb)
  | .setu word width lsb value => .setu word (pw.desc width) (pw.desc lsb) value
  | .sets word width lsb value => .sets word (pw.desc width) (pw.desc lsb) value
  | .norm px0 den => .norm (px0.carried pw) (pw.comp den)
  | .denorm n0 n1 n2 den => .denorm n0 n1 n2 (pw.comp den)
  | .dqavg q => .dqavg (BitVec.ofNat 6 q).toNat
  | .dqdet q => .dqdet (BitVec.ofInt 6 q).toInt
  | .blkenc px0 px1 px2 px3 den =>
    .blkenc (px0.carried pw) (px1.carried pw) (px2.carried pw) (px3.carried pw) (pw.comp den)
  | i => i

/-- The decoder reads from a command's own encoding that command, its operands as the ports carry them. -/
theorem decode_encode (pw : Widths) (i : Instr) : decode pw (encode i) = .ok (i.carried pw) := by
  cases i <;> rfl

/-- Every operand that fits its port is carried whole, so a well-formed command is. -/
theorem carried_of_wellFormed (h : i.wellFormed pw = true) : i.carried pw = i := by
  cases i with
  | fitsu _ width | fitss _ width =>
    have hwidth : width < 2 ^ pw.dw := by simpa [Instr.wellFormed] using h
    simp only [Instr.carried, desc_of_lt hwidth]
  | getu _ width lsb | gets _ width lsb | setu _ width lsb _ | sets _ width lsb _ =>
    have ⟨hwidth, hlsb⟩ : width < 2 ^ pw.dw ∧ lsb < 2 ^ pw.dw := by simpa [Instr.wellFormed] using h
    simp only [Instr.carried, desc_of_lt hwidth, desc_of_lt hlsb]
  | norm px0 den =>
    have ⟨hpx0, hden⟩ : px0.fits pw = true ∧ den < 2 ^ pw.cw := by simpa [Instr.wellFormed] using h
    simp only [Instr.carried, carried_of_fits hpx0, comp_of_lt hden]
  | denorm _ _ _ den =>
    have hden : den < 2 ^ pw.cw := by simpa [Instr.wellFormed] using h
    simp only [Instr.carried, comp_of_lt hden]
  | dqavg q =>
    have hq : q < 2 ^ 6 := by simpa [Instr.wellFormed] using h
    simp only [Instr.carried, q_unsigned hq]
  | dqdet q =>
    have ⟨hlo, hhi⟩ : -32 ≤ q ∧ q ≤ 31 := by simpa [Instr.wellFormed] using h
    simp only [Instr.carried, q_signed hlo hhi]
  | blkenc px0 px1 px2 px3 den =>
    have ⟨⟨⟨⟨h0, h1⟩, h2⟩, h3⟩, hden⟩ : (((px0.fits pw = true ∧ px1.fits pw = true) ∧ px2.fits pw = true) ∧
        px3.fits pw = true) ∧ den < 2 ^ pw.cw := by simpa [Instr.wellFormed] using h
    simp only [Instr.carried, carried_of_fits h0, carried_of_fits h1, carried_of_fits h2, carried_of_fits h3,
      comp_of_lt hden]
  | rgb2ypp | ypp2rgb | clamp01 | btfwd | btinv | qavg | qdet | cidx | cval | blkdec => rfl

/-- Settles O7: the decoder returns what the ports carry, which for a well-formed command is the command. -/
theorem decodeOfEncode : Obligations.DecodeOfEncode := fun pw i h => by
  rw [decode_encode, carried_of_wellFormed h]

end Sys2Proof
end

section
/-! What every step leaves alone, and the one response each command gets (R20, R27, R28, R45, R205 to R209). -/

namespace Sys2Proof.Machine

variable {s t : State} {i : Instr}

/-! ### The reset state, and every step -/

/-- Settles O1: the fields of `State.reset` and the outputs computed from them. -/
theorem resetStateIsNotHalted : Obligations.ResetStateIsNotHalted := ⟨rfl, rfl, rfl, rfl, rfl⟩

/-- Settles O52: with no response given and both latches clear, nothing is left to check but R9's default widths. -/
theorem resetStateIsLegal : Obligations.ResetStateIsLegal := by
  refine ⟨?_, (responsesTellLatches_running reset_halted).2 ?_, ?_, ?_, rfl⟩
  · simp [latchesAgree]
  · simp
  · simp [onlyOkDrives]
  · simp [resultsFit]

/-- Settles O5: each of the three things a step can do ends in a next state. -/
theorem everyStepAnswers : Obligations.EveryStepAnswers := fun s => by
  obtain ⟨-, e⟩ | ⟨p, rest, -, e⟩ | ⟨a, rest, -, e⟩ := step_cases s
  all_goals exact ⟨_, e⟩

/-- Settles O4: waiting, the end of a command and a reset each keep the configuration. -/
theorem configurationNeverChanges : Obligations.ConfigurationNeverChanges := fun s t h => by
  obtain ⟨-, e⟩ | ⟨p, rest, -, e⟩ | ⟨a, rest, -, e⟩ := step_cases s <;> rw [e] at h <;> cases h
  · rfl
  · exact finish_cfg _ _
  · exact resetBlock_cfg _

theorem step_decoded {p : Ports} {rest : List HostEvent} (h : s.inputs = .command p :: rest)
    (hd : decode s.cfg.widths p = .ok i) : step s = exec i { s with inputs := rest } := by
  simp only [step, h, hd]

/-- Settles O11, by the two branches of a step that meet no reset and no reserved op code. -/
theorem stepRunsTheDecodedCommand : Obligations.StepRunsTheDecodedCommand :=
  ⟨fun _ _ _ _ => step_decoded, fun _ => step_idle⟩

/-! ### The response of one command -/

/-- A command's end gives one response. Either the command computed result ports and the response is `OK` with them, or it
is another status and drives no port (R27). -/
theorem finish_response (s : State) (res : Result Results) :
    ∃ r : Response, (finish s res).responses = s.responses ++ [r] ∧
      ((∃ ports, res = .ok ports ∧ r = ⟨.ok, ports⟩) ∨ (r.status ≠ .ok ∧ r.ports.driven = [])) := by
  obtain ⟨-, e⟩ | ⟨-, ⟨ports, hres, e⟩ | ⟨-, e⟩ | ⟨k, -, e⟩⟩ := finish_cases s res <;> rw [e]
  · exact ⟨_, rfl, .inr ⟨by simp, driven_nothing⟩⟩
  · exact ⟨_, rfl, .inl ⟨ports, hres, rfl⟩⟩
  · exact ⟨_, rfl, .inr ⟨by simp, driven_nothing⟩⟩
  · exact ⟨_, rfl, .inr ⟨fatalStatus_ne_ok k, driven_nothing⟩⟩

/-- A command's end keeps the latches, or it is the entry of a fatal fault whose code the response and `cause` share (R77, R206 to
R209). -/
theorem finish_latches (s : State) (res : Result Results) :
    ((finish s res).halted = s.halted ∧ (finish s res).cause = s.cause) ∨
    (s.halted = false ∧ ∃ k, finish s res = enterFatal s k) := by
  obtain ⟨-, e⟩ | ⟨hrun, ⟨ports, -, e⟩ | ⟨-, e⟩ | ⟨k, -, e⟩⟩ := finish_cases s res
  · exact .inl (by simp [e])
  · exact .inl (by simp [e])
  · exact .inl (by simp [e])
  · exact .inr ⟨hrun, k, e⟩

/-- Settles O14, by the one response of a command's end and by what that end does to the latches. -/
theorem oneResponsePerCommandAndFrame : Obligations.OneResponsePerCommandAndFrame := fun s t p rest h hstep => by
  rw [step_command h] at hstep
  cases hstep
  refine ⟨finish_cfg _ _, finish_inputs _ _, ?_⟩
  obtain ⟨r, hr, hdrives⟩ := finish_response { s with inputs := rest } (portsResult s.cfg p)
  refine ⟨r, hr, ?_, ?_⟩
  · obtain ⟨ports, -, rfl⟩ | ⟨-, hnone⟩ := hdrives
    · exact fun hne => absurd rfl hne
    · exact fun _ => hnone
  · obtain hkept | ⟨hrun, k, e⟩ := finish_latches { s with inputs := rest } (portsResult s.cfg p)
    · exact .inl hkept
    · rw [e] at hr ⊢
      obtain rfl : _ = r := List.singleton_injective (List.append_cancel_left hr)
      exact .inr ⟨hrun, rfl, (fatal_codes_agree k).symm, fatalCause_ne_none k⟩

/-- The ports a command computes are those of R71's table. -/
theorem driven_of_resultOf {c : Config} {ports : Results} (h : resultOf c i = .ok ports) : ports.driven = i.drives := by
  obtain ⟨ports', e, hd⟩ | ⟨e, -⟩ | ⟨e, -⟩ | ⟨e, -⟩ | ⟨e, -⟩ := resultOf_cases c i <;> rw [e] at h <;> cases h
  exact hd

/-- Every command has a result port (R71). -/
theorem drives_ne_nil (i : Instr) : i.drives ≠ [] := by cases i <;> simp [Instr.drives]

/-- Settles O15: an `OK` has the computed ports, which are the table's; any other response has none, and the table has
some for every command. -/
theorem okDrivesTheTablesPorts : Obligations.OkDrivesTheTablesPorts := fun s t i r _ hexec hr => by
  rw [exec_eq] at hexec
  cases hexec
  obtain ⟨r', hr', hdrives⟩ := finish_response s (resultOf s.cfg i)
  obtain rfl : r' = r := List.singleton_injective (List.append_cancel_left (hr'.symm.trans hr))
  obtain ⟨ports, hres, rfl⟩ | ⟨hne, hnone⟩ := hdrives
  · exact iff_of_true rfl (driven_of_resultOf hres)
  · exact iff_of_false hne (hnone ▸ (drives_ne_nil i).symm)

/-! ### Runs -/

/-- A running block ends a command as a block just reset does: the same response and the same halt latch (R20). -/
theorem finish_running (h : s.halted = false) (c : Config) (res : Result Results) :
    (finish s res).responses = s.responses ++ (finish (freshBlock c []) res).responses ∧
    (finish s res).halted = (finish (freshBlock c []) res).halted := by
  have hfresh := freshBlock_halted c []
  match res with
  | .ok ports => simp [h, finish_ok hfresh]
  | .error .overflow => simp [h, finish_overflow hfresh]
  | .error (.fatal k) => simp [h, finish_fatal hfresh]

theorem afterOne_eq (c : Config) (p : Ports) : afterOne c p = finish (freshBlock c []) (portsResult c p) :=
  advance_command rfl

/-- One command's response, then those expected of the state it leaves, are those expected of this state (R20, R209). -/
theorem expectedResponses_cons {p : Ports} {rest : List HostEvent} (h : s.inputs = .command p :: rest) (ps : List Ports) :
    (advance s).responses ++ expectedResponses s.cfg (advance s).halted ps =
      s.responses ++ expectedResponses s.cfg s.halted (p :: ps) := by
  rw [advance_command h]
  obtain hh | hh := Bool.eq_false_or_eq_true s.halted
  · rw [finish_halted (s := { s with inputs := rest }) hh]
    simp [hh, expectedResponses, Response.refusal]
  · obtain ⟨hresp, hhalt⟩ := finish_running (s := { s with inputs := rest }) hh s.cfg (portsResult s.cfg p)
    rw [hresp, hhalt, hh, expectedResponses, afterOne_eq, List.append_assoc]

/-- Settles O54, by induction on the commands, from any state: one command's response, then the run of the others. -/
theorem runsAnswerCommandsInOrder : Obligations.RunsAnswerCommandsInOrder := by
  intro s cmds rest h
  induction cmds generalizing s with
  | nil => simpa [advanceN, expectedResponses] using h
  | cons p ps ih =>
    have hadv := advance_command h
    have hcfg : (advance s).cfg = s.cfg := by simp [hadv]
    obtain ⟨hresp, hinputs, hcfg'⟩ := ih (advance s) (by simp [hadv])
    refine ⟨?_, hinputs, hcfg'.trans hcfg⟩
    calc (advanceN ps.length (advance s)).responses
        = (advance s).responses ++ expectedResponses s.cfg (advance s).halted ps := by rw [hresp, hcfg]
      _ = s.responses ++ expectedResponses s.cfg s.halted (p :: ps) := expectedResponses_cons h ps

end Sys2Proof.Machine
end

section
/-! Several blocks side by side (R47): what a schedule makes of one block depends on that block's own turns alone. -/

namespace Sys2Proof.Machine

/-- A turn steps the block it names and no other. -/
theorem stepInstance_getElem? (blocks : List State) (k j : Nat) :
    (stepInstance blocks k)[j]? = if k = j then blocks[j]?.map advance else blocks[j]? := by
  rw [stepInstance, List.getElem?_modify]
  split <;> simp

/-- After a schedule each block is what its own turns make of its own start state. -/
theorem runSchedule_getElem? (schedule : List Nat) {blocks : List State} {j : Nat} {s : State}
    (h : blocks[j]? = some s) : (runSchedule schedule blocks)[j]? = some (advanceN (schedule.count j) s) := by
  induction schedule generalizing blocks s with
  | nil => simpa [runSchedule, advanceN] using h
  | cons k ks ih =>
    by_cases hk : k = j
    · subst hk
      rw [List.count_cons_self, advanceN]
      exact ih (by simp [stepInstance_getElem?, h])
    · rw [List.count_cons_of_ne hk]
      exact ih (by simp [stepInstance_getElem?, h, hk])

/-- Settles O55: the schedule leaves a block its own turns, and its own run is that of O54. -/
theorem instancesShareNothing : Obligations.InstancesShareNothing := fun schedule blocks j s h => by
  have hrun := runSchedule_getElem? schedule h
  refine ⟨hrun, fun cmds rest hinputs hcount => ?_⟩
  obtain ⟨hresp, hrest, -⟩ := runsAnswerCommandsInOrder s cmds rest hinputs
  exact ⟨_, hcount ▸ hrun, hresp, hrest⟩

end Sys2Proof.Machine
end

section
/-! The host's byte stream (R53 to R56, R221, R222): what is written is read back, word by word and in the header. -/

namespace Sys2Proof.Machine

/-! ### Words -/

/-- The four bytes of a word, put side by side, are the word (R54, R56). -/
theorem bytesWord_extract (p : BitVec 32) :
    bytesWord (p.extractLsb' 24 8) (p.extractLsb' 16 8) (p.extractLsb' 8 8) (p.extractLsb' 0 8) = p := by
  rw [bytesWord, BitVec.extractLsb'_append_extractLsb'_eq_extractLsb' (by rfl),
    BitVec.extractLsb'_append_extractLsb'_eq_extractLsb' (by rfl),
    BitVec.extractLsb'_append_extractLsb'_eq_extractLsb' (by rfl)]
  exact BitVec.extractLsb'_eq_self

/-- The bytes of a word in order are its quotients by the powers of 256, each cut to a byte (R54). -/
theorem wordBytes_toNat (p : BitVec 32) : (wordBytes p).map BitVec.toNat =
    [p.toNat / 2 ^ 24, p.toNat / 2 ^ 16 % 2 ^ 8, p.toNat / 2 ^ 8 % 2 ^ 8, p.toNat % 2 ^ 8] := by
  have htop : p.toNat / 2 ^ 24 % 2 ^ 8 = p.toNat / 2 ^ 24 := by omega
  simp only [wordBytes, List.map_cons, List.map_nil, BitVec.extractLsb'_toNat, Nat.shiftRight_eq_div_pow, htop,
    pow_zero, Nat.div_one]

/-- Reading as many words as were written gives them and leaves what follows (R54, R56). -/
theorem readWords_wordBytes (ps : List (BitVec 32)) (rest : List Byte) :
    readWords ps.length (ps.flatMap wordBytes ++ rest) = .ok (ps, rest) := by
  induction ps with
  | nil => rfl
  | cons p ps ih =>
    simp only [List.flatMap_cons, wordBytes, List.cons_append, List.nil_append, List.length_cons, readWords,
      bytesWord_extract]
    simp only [ih]

/-- Settles O56, by the bytes of one word and by induction on the words read back. -/
theorem wordsSurviveSerialization : Obligations.WordsSurviveSerialization :=
  ⟨wordBytes_toNat, readWords_wordBytes⟩

/-! ### Headers -/

variable {sp : StreamParams}

theorem parseHeader_wrongTag {bs : List Byte} (h : ¬ (sp.tag ++ [0x20]) <+: bs) :
    parseHeader sp bs = .error .malformedHeader := by
  simp only [parseHeader, dropPrefix_none h]

theorem parseHeader_noWidth {bs : List Byte} (h : takeNumber sp bs = none) :
    parseHeader sp (sp.tag ++ [0x20] ++ bs) = .error .malformedHeader := by
  simp only [parseHeader, dropPrefix_append, h]

/-- A number ends at the space after it. -/
theorem takeNumber_beforeSpace (sp : StreamParams) (n : Nat) (bs : List Byte) :
    takeNumber sp (decimalAscii n ++ ([0x20] ++ bs)) = some (n, [0x20] ++ bs) :=
  takeNumber_decimalAscii sp n (by simp [isDigit])

theorem parseHeader_noHeight (w : Nat) {bs : List Byte} (h : takeNumber sp bs = none) :
    parseHeader sp (sp.tag ++ [0x20] ++ (decimalAscii w ++ ([0x20] ++ bs))) = .error .malformedHeader := by
  simp only [parseHeader, dropPrefix_append, takeNumber_beforeSpace, h]

theorem parseHeader_noNewline (w h : Nat) {bs : List Byte} (hb : ∀ b ∈ bs.head?, isDigit b = false)
    (hn : dropPrefix [0x0A] bs = none) :
    parseHeader sp (sp.tag ++ [0x20] ++ (decimalAscii w ++ ([0x20] ++ (decimalAscii h ++ bs)))) =
      .error .malformedHeader := by
  simp only [parseHeader, dropPrefix_append, takeNumber_beforeSpace, takeNumber_decimalAscii sp h hb, hn]

/-- The header written is read to its end; only its dimensions can still be wrong (R53, R55, R222). -/
theorem parseHeader_streamHeader (w h : Nat) (body : List Byte) :
    parseHeader sp (streamHeader sp w h ++ body) =
      if w = 0 ∨ h = 0 then .error .invalidDimensions else .ok (w, h, body) := by
  have hh : takeNumber sp (decimalAscii h ++ ([0x0A] ++ body)) = some (h, [0x0A] ++ body) :=
    takeNumber_decimalAscii sp h (by simp [isDigit])
  have hbs : streamHeader sp w h ++ body =
      sp.tag ++ [0x20] ++ (decimalAscii w ++ ([0x20] ++ (decimalAscii h ++ ([0x0A] ++ body)))) := by
    simp [streamHeader]
  simp only [hbs, parseHeader, dropPrefix_append, takeNumber_beforeSpace, hh]

/-- A minus sign is no digit, so no number begins with it (R222). -/
theorem takeNumber_minus (bs : List Byte) : takeNumber sp (0x2D :: bs) = none := by
  simp [takeNumber, isDigit]

/-- Settles O57, by what the parser answers after each part of the header. -/
theorem headersAreReadBack : Obligations.HeadersAreReadBack := fun sp => by
  refine ⟨fun w h body hw hh => ?_, fun w h body hz => ?_, fun bs => parseHeader_wrongTag, fun bs => ?_,
    fun w bs => ?_, fun w h bs hb => ?_⟩
  · rw [parseHeader_streamHeader, if_neg (by simp [hw, hh])]
  · rw [parseHeader_streamHeader, if_pos hz]
  · simpa using parseHeader_noWidth (sp := sp) (takeNumber_minus bs)
  · simpa using parseHeader_noHeight (sp := sp) w (takeNumber_minus bs)
  · have hnone : dropPrefix [0x0A] bs = none := dropPrefix_none fun ⟨body, e⟩ => by
      subst e
      simp at hb
    simpa using parseHeader_noNewline (sp := sp) w h (fun b hmem => (hb b hmem).2) hnone

end Sys2Proof.Machine
end

section
/-! Odd trailing lines (R50): the raster cut to its effective dimensions has the same blocks. -/

namespace Sys2Proof.Machine

variable (r : Raster)

/-- The effective dimensions are two samples for each packed element (R50). -/
theorem two_mul_packedWidth : 2 * packedWidth r = r.width - r.width % 2 := by
  rw [packedWidth]
  omega

theorem two_mul_packedHeight : 2 * packedHeight r = r.height - r.height % 2 := by
  rw [packedHeight]
  omega

@[simp] theorem packedWidth_crop : packedWidth (crop r) = packedWidth r := by
  simp only [packedWidth, crop]
  omega

@[simp] theorem packedHeight_crop : packedHeight (crop r) = packedHeight r := by
  simp only [packedHeight, crop]
  omega

/-- Inside the effective dimensions cropping keeps every pixel in its place. -/
theorem pixelAt_crop {col row : Nat} (hc : col < r.width - r.width % 2) (hr : row < r.height - r.height % 2) :
    (crop r).pixelAt col row = r.pixelAt col row := by
  rw [Raster.pixelAt, List.getD_eq_getElem?_getD]
  simp only [crop, List.getElem?_map, gridWalk_getElem? hc hr, Option.map_some, Option.getD_some]

/-- All four pixels of a block lie inside the effective dimensions (R50, R52). -/
theorem blockCommand_crop {i j : Nat} (hi : i < packedWidth r) (hj : j < packedHeight r) :
    blockCommand (crop r) i j = blockCommand r i j := by
  rw [packedWidth] at hi
  rw [packedHeight] at hj
  simp only [blockCommand]
  rw [pixelAt_crop r (by omega) (by omega), pixelAt_crop r (by omega) (by omega),
    pixelAt_crop r (by omega) (by omega), pixelAt_crop r (by omega) (by omega)]
  rfl

theorem encodeCommands_crop : encodeCommands (crop r) = encodeCommands r := by
  simp only [encodeCommands, packedWidth_crop, packedHeight_crop]
  refine List.map_congr_left fun ij hij => ?_
  obtain ⟨hi, hj⟩ := mem_gridWalk.1 hij
  exact blockCommand_crop r hi hj

/-- Settles O59: the stream hangs on the raster through its commands and its packed dimensions alone. -/
theorem oddTrailingLinesAreDropped : Obligations.OddTrailingLinesAreDropped := fun sp cfg r => by
  simp only [encodeStream, encodeCommands_crop, packedWidth_crop, packedHeight_crop]

end Sys2Proof.Machine
end

section
/-! Encoding and decoding under `NUM_Q` (R167, R181, R182): normal pixels always pack, and every word decodes. -/

namespace Sys2Proof.Machine

variable {ties : RoundTies} {C : Chroma}

/-! ### From normal pixels to the six fields -/

/-- A component that does not exceed the denominator is normalized into [0,1] (R131). -/
theorem normalized_unit {c den : Nat} (hd : den ≠ 0) (h : c ≤ den) :
    (0 : Rat) ≤ (c : Rat) / den ∧ (c : Rat) / den ≤ 1 :=
  ⟨by positivity, div_le_one_of_le₀ (by exact_mod_cast h) (by positivity)⟩

/-- The luma weights are nonnegative and sum to 1, so luma stays in [0,1] (R132). -/
theorem luma_unit {x y z : Rat} (hx : 0 ≤ x ∧ x ≤ 1) (hy : 0 ≤ y ∧ y ≤ 1) (hz : 0 ≤ z ∧ z ≤ 1) :
    0 ≤ (toLumaChroma (numQ ties) ⟨x, y, z⟩).x0 ∧ (toLumaChroma (numQ ties) ⟨x, y, z⟩).x0 ≤ 1 := by
  simp only [toLumaChroma, numQ_add, numQ_mul, numQ_flit]
  norm_num
  constructor <;> linarith

/-- The first coefficient of the forward transform is a mean, so it stays in [0,1] (R151). -/
theorem mean_unit {a b c d : Rat} (ha : 0 ≤ a ∧ a ≤ 1) (hb : 0 ≤ b ∧ b ≤ 1) (hc : 0 ≤ c ∧ c ≤ 1)
    (hd : 0 ≤ d ∧ d ≤ 1) :
    0 ≤ (forwardTransform (numQ ties) ⟨a, b, c, d⟩).x0 ∧ (forwardTransform (numQ ties) ⟨a, b, c, d⟩).x0 ≤ 1 := by
  simp only [forwardTransform, numQ_add, numQ_div, numQ_fint]
  norm_num
  constructor <;> linarith

/-- `QAVG` of a value in [0,1] fits its six unsigned bits (R161, R167). -/
theorem quantizeAverage_unit {a : Rat} (h : 0 ≤ a ∧ a ≤ 1) :
    ∃ v, quantizeAverage (numQ ties) a = .ok v ∧ v.toNat ≤ 63 := by
  have h0 : 0 ≤ froundQ ties (a * 63) := le_froundQ _ _ (by push_cast; linarith)
  have h1 : froundQ ties (a * 63) ≤ 63 := froundQ_le _ _ (by push_cast; linarith)
  refine ⟨_, quantizeAverage_numQ ties (by omega) (by omega), ?_⟩
  rw [BitVec.toNat_ofInt]
  omega

/-- `QDET` under `NUM_Q` answers within −15..15 (R163, R167). -/
theorem quantizeDetail_range (x : Rat) :
    ∃ v, quantizeDetail (numQ ties) x = .ok v ∧ -15 ≤ v.toInt ∧ v.toInt ≤ 15 := by
  have ⟨hlo, hhi⟩ := detailQ_range ties x
  refine ⟨_, quantizeDetail_numQ ties x, ?_⟩
  rw [toInt_ofInt64 (by omega) (by omega)]
  exact ⟨hlo, hhi⟩

/-- Four lumas in [0,1] quantize, each field within its own range (R167, R181). -/
theorem quantizeBlock_unit {t0 t1 t2 t3 : Triple} (h0 : 0 ≤ t0.x0 ∧ t0.x0 ≤ 1) (h1 : 0 ≤ t1.x0 ∧ t1.x0 ≤ 1)
    (h2 : 0 ≤ t2.x0 ∧ t2.x0 ≤ 1) (h3 : 0 ≤ t3.x0 ∧ t3.x0 ≤ 1) :
    ∃ (a b c d : Word) (i j : BitVec 4),
      quantizeBlock (numQ ties) C t0 t1 t2 t3 = .ok ⟨a, b, c, d, i.setWidth 64, j.setWidth 64⟩ ∧
      a.toNat ≤ 63 ∧ ∀ v ∈ [b, c, d], -15 ≤ v.toInt ∧ v.toInt ≤ 15 := by
  obtain ⟨a, ea, ha⟩ := quantizeAverage_unit (ties := ties) (mean_unit (ties := ties) h0 h1 h2 h3)
  obtain ⟨b, eb, hb⟩ := quantizeDetail_range (ties := ties)
    (forwardTransform (numQ ties) ⟨t0.x0, t1.x0, t2.x0, t3.x0⟩).x1
  obtain ⟨c, ec, hc⟩ := quantizeDetail_range (ties := ties)
    (forwardTransform (numQ ties) ⟨t0.x0, t1.x0, t2.x0, t3.x0⟩).x2
  obtain ⟨d, ed, hd⟩ := quantizeDetail_range (ties := ties)
    (forwardTransform (numQ ties) ⟨t0.x0, t1.x0, t2.x0, t3.x0⟩).x3
  refine ⟨a, b, c, d, _, _, by rw [quantizeBlock, ea, eb, ec, ed]; rfl, ha, ?_⟩
  simp [hb, hc, hd]

/-- In normal operation the six fields are made, each within its own range (R167, R181). -/
theorem encodeFields_normal {p0 p1 p2 p3 : Pixel} {den : Nat} (hden : den ≠ 0) (h0 : normalPixel den p0)
    (h1 : normalPixel den p1) (h2 : normalPixel den p2) (h3 : normalPixel den p3) :
    ∃ (a b c d : Word) (i j : BitVec 4),
      encodeFields (numQ ties) C p0 p1 p2 p3 den = .ok ⟨a, b, c, d, i.setWidth 64, j.setWidth 64⟩ ∧
      a.toNat ≤ 63 ∧ ∀ v ∈ [b, c, d], -15 ≤ v.toInt ∧ v.toInt ≤ 15 := by
  have unit : ∀ {p : Pixel}, normalPixel den p →
      0 ≤ (toLumaChroma (numQ ties) ⟨(p.r : Rat) / den, (p.g : Rat) / den, (p.b : Rat) / den⟩).x0 ∧
      (toLumaChroma (numQ ties) ⟨(p.r : Rat) / den, (p.g : Rat) / den, (p.b : Rat) / den⟩).x0 ≤ 1 :=
    fun ⟨hr, hg, hb⟩ => luma_unit (normalized_unit hden hr) (normalized_unit hden hg) (normalized_unit hden hb)
  rw [encodeFields_eq hden (t := fun p => toLumaChroma (numQ ties)
    ⟨(p.r : Rat) / den, (p.g : Rat) / den, (p.b : Rat) / den⟩) (by simp)]
  exact quantizeBlock_unit (unit h0) (unit h1) (unit h2) (unit h3)

/-- A detail in −15..15 fits its six signed bits (R167). -/
theorem fitsS_detail {v : Word} (h : -15 ≤ v.toInt ∧ v.toInt ≤ 15) : fitsS v 6 = true := by
  rw [fitsS_iff (by norm_num) (by norm_num)]
  omega

/-- In normal operation `BLKENC` packs (R167, R181, R232). -/
theorem encodeBlock_normal {p0 p1 p2 p3 : Pixel} {den : Nat} (hden : den ≠ 0) (h0 : normalPixel den p0)
    (h1 : normalPixel den p1) (h2 : normalPixel den p2) (h3 : normalPixel den p3) :
    ∃ packed, encodeBlock (numQ ties) C p0 p1 p2 p3 den = .ok packed := by
  obtain ⟨a, b, c, d, i, j, e, ha, hdet⟩ := encodeFields_normal (ties := ties) (C := C) hden h0 h1 h2 h3
  have hfits : ∀ v ∈ [b, c, d], fitsS v 6 = true := fun v hv => fitsS_detail (hdet v hv)
  refine ⟨_, encodeBlock_fits e ((fitsU_iff a 6).2 (by omega)) ?_ ?_ ?_⟩ <;> exact hfits _ (by simp)

/-! ### From a word to four pixels -/

/-- A clamped lane denormalizes by 255 into 0..255, which fits every legal component port (R134, R135, R182). -/
theorem denormLane_clamped {cw : Nat} (hcw : 8 ≤ cw) (x : Rat) :
    ∃ n, denormLane (numQ ties) cw (clampLane (numQ ties) x) 255 = .ok n ∧ n ≤ 255 := by
  have h0 : 0 ≤ clampLane (numQ ties) x * 255 := by rw [clampLane_numQ]; positivity
  have h1 : clampLane (numQ ties) x * 255 ≤ ((255 : Int) : Rat) := by
    have : clampLane (numQ ties) x ≤ 1 := by rw [clampLane_numQ]; exact max_le zero_le_one (min_le_left _ _)
    push_cast
    linarith
  have hlo := ftruncQ_nonneg _ h0
  have hhi := ftruncQ_le _ h0 h1
  have hport : (2 : Int) ^ 8 ≤ 2 ^ cw := pow_le_pow_right₀ (by norm_num) hcw
  exact ⟨_, denormLane_fits (by simp) hlo (by omega), by omega⟩

/-- Under `NUM_Q` every position of a decoded block has its pixel, with components in 0..255 (R182). -/
theorem pixelFromYpp_numQ {cw : Nat} (hcw : 8 ≤ cw) (t : Triple) :
    ∃ o, pixelFromYpp (numQ ties) cw t = .ok o ∧ o.r ≤ 255 ∧ o.g ≤ 255 ∧ o.b ≤ 255 := by
  obtain ⟨r, er, hr⟩ := denormLane_clamped (ties := ties) hcw (toRgb (numQ ties) t).x0
  obtain ⟨g, eg, hg⟩ := denormLane_clamped (ties := ties) hcw (toRgb (numQ ties) t).x1
  obtain ⟨b, eb, hb⟩ := denormLane_clamped (ties := ties) hcw (toRgb (numQ ties) t).x2
  refine ⟨⟨r, g, b⟩, ?_, hr, hg, hb⟩
  simp only [pixelFromYpp, denormalize, clamp01, er, eg, eb]
  rfl

/-- Under `NUM_Q` every word decodes to four pixels with components in 0..255 (R83, R182). -/
theorem decodeBlock_numQ {cw : Nat} (hcw : 8 ≤ cw) (packed : BitVec 32) :
    ∃ o, decodeBlock (numQ ties) C cw packed = .ok o ∧
      ∀ p ∈ [o.p0, o.p1, o.p2, o.p3], p.r ≤ 255 ∧ p.g ≤ 255 ∧ p.b ≤ 255 := by
  unfold decodeBlock
  rw [unpack6_eq]
  simp only [bind, Except.bind]
  generalize inverseTransform (numQ ties) _ = y
  generalize C.chromaOf _ = pb
  generalize C.chromaOf _ = pr
  obtain ⟨o0, e0, h0⟩ := pixelFromYpp_numQ (ties := ties) hcw ⟨y.x0, pb, pr⟩
  obtain ⟨o1, e1, h1⟩ := pixelFromYpp_numQ (ties := ties) hcw ⟨y.x1, pb, pr⟩
  obtain ⟨o2, e2, h2⟩ := pixelFromYpp_numQ (ties := ties) hcw ⟨y.x2, pb, pr⟩
  obtain ⟨o3, e3, h3⟩ := pixelFromYpp_numQ (ties := ties) hcw ⟨y.x3, pb, pr⟩
  refine ⟨⟨o0, o1, o2, o3⟩, by rw [e0, e1, e2, e3]; rfl, ?_⟩
  simp [h0, h1, h2, h3]

end Sys2Proof.Machine
end

section
/-! A raster through the host and the block and back (R50 to R58): one `BLKENC` per block, one `BLKDEC` per word. -/

namespace Sys2Proof.Machine

variable {cfg : Config} {ties : RoundTies} {sp : StreamParams}

/-! ### Runs in which every command completes -/

/-- A block just reset answers a stream of commands as R20 and R209 describe. -/
theorem responsesTo_eq (cfg : Config) (cmds : List Ports) :
    responsesTo cfg cmds = expectedResponses cfg false cmds := by
  obtain ⟨h, -, -⟩ := runsAnswerCommandsInOrder (freshBlock cfg (cmds.map .command)) cmds [] (by simp)
  simpa [responsesTo] using h

theorem portsResult_encode {i : Instr} (h : i.wellFormed cfg.widths = true) :
    portsResult cfg (encode i) = resultOf cfg i := by
  simp only [portsResult, decode_encode, carried_of_wellFormed h]

/-- A command that completes is answered `OK` and leaves the block running for the next (R20, R206). -/
theorem expectedResponses_completed {i : Instr} {ports : Results} (hi : i.wellFormed cfg.widths = true)
    (h : resultOf cfg i = .ok ports) (ps : List Ports) :
    expectedResponses cfg false (encode i :: ps) = ⟨.ok, ports⟩ :: expectedResponses cfg false ps := by
  have hone : afterOne cfg (encode i) = respond (freshBlock cfg []) .ok ports := by
    rw [afterOne_eq, portsResult_encode hi, h, finish_ok rfl]
  simp [expectedResponses, hone]

/-- A run of commands that each drive `packed` has one packed word per command. -/
theorem packedWords_completed {cmds : List Instr} (hwf : ∀ i ∈ cmds, i.wellFormed cfg.widths = true)
    (h : ∀ i ∈ cmds, ∃ p, resultOf cfg i = .ok { packed := some p }) :
    ∃ ps, packedWords (responsesTo cfg (cmds.map encode)) = some ps ∧ ps.length = cmds.length := by
  rw [responsesTo_eq]
  induction cmds with
  | nil => exact ⟨[], rfl, rfl⟩
  | cons i is ih =>
    rw [List.forall_mem_cons] at hwf h
    obtain ⟨hi, his⟩ := hwf
    obtain ⟨⟨p, hp⟩, hps⟩ := h
    obtain ⟨ps, hwords, hlen⟩ := ih his hps
    refine ⟨p :: ps, ?_, by simp [hlen]⟩
    rw [List.map_cons, expectedResponses_completed hi hp]
    simp [packedWords, hwords]

/-- A run of `BLKDEC` commands that each complete has one block of pixels per command. -/
theorem decodedBlocks_completed
    (h : ∀ p, ∃ o, resultOf cfg (.blkdec p) = .ok (pxQuadResults o)) (ps : List (BitVec 32)) :
    ∃ qs, decodedBlocks (responsesTo cfg (ps.map fun p => encode (.blkdec p))) = some qs := by
  rw [responsesTo_eq]
  induction ps with
  | nil => exact ⟨[], rfl⟩
  | cons p ps ih =>
    obtain ⟨o, ho⟩ := h p
    obtain ⟨qs, hqs⟩ := ih
    refine ⟨o :: qs, ?_⟩
    rw [List.map_cons, expectedResponses_completed rfl ho]
    simp [decodedBlocks, pxQuadResults, hqs]

/-! ### Encoding -/

/-- Black is normal, so a raster of normal pixels has one at every place. -/
theorem normalPixel_pixelAt {r : Raster} (h : ∀ p ∈ r.pixels, normalPixel r.den p) (col row : Nat) :
    normalPixel r.den (r.pixelAt col row) := by
  rw [Raster.pixelAt, List.getD_eq_getElem?_getD]
  cases e : r.pixels[row * r.width + col]? with
  | none => simp [normalPixel]
  | some p => exact h p (List.mem_of_getElem? e)

/-- A pixel within a denominator that fits its port fits too (R26). -/
theorem fits_of_normalPixel {pw : Widths} {den : Nat} {p : Pixel} (hden : den < 2 ^ pw.cw) (h : normalPixel den p) :
    p.fits pw = true := by
  obtain ⟨hr, hg, hb⟩ := h
  exact fits_iff.2 ⟨by omega, by omega, by omega⟩

/-- A raster of normal pixels whose denominator fits its port encodes, to the header and one word per block. -/
theorem encodeStream_normal {r : Raster} (hnum : cfg.num = .exactRational ties) (hden : r.den ≠ 0)
    (hfit : r.den < 2 ^ cfg.widths.cw) (h : ∀ p ∈ r.pixels, normalPixel r.den p) :
    ∃ ps : List (BitVec 32), ps.length = packedWidth r * packedHeight r ∧
      encodeStream sp cfg r = .ok (streamHeader sp (packedWidth r) (packedHeight r) ++ ps.flatMap wordBytes) := by
  have hpx := normalPixel_pixelAt h
  have hwf : ∀ i ∈ encodeCommands r, i.wellFormed cfg.widths = true := by
    simp only [encodeCommands, List.forall_mem_map, blockCommand, Instr.wellFormed,
      fits_of_normalPixel hfit (hpx _ _), hfit]
    simp
  have hok : ∀ i ∈ encodeCommands r, ∃ p, resultOf cfg i = .ok { packed := some p } := by
    simp only [encodeCommands, List.forall_mem_map, blockCommand, resultOf, numOf_exact ties hnum]
    intro ij _
    obtain ⟨p, hp⟩ := encodeBlock_normal (ties := ties) (C := chromaOfConfig cfg) hden (hpx (2 * ij.1) (2 * ij.2))
      (hpx (2 * ij.1 + 1) (2 * ij.2)) (hpx (2 * ij.1) (2 * ij.2 + 1)) (hpx (2 * ij.1 + 1) (2 * ij.2 + 1))
    exact ⟨p, by rw [hp]; rfl⟩
  obtain ⟨ps, hps, hlen⟩ := packedWords_completed hwf hok
  refine ⟨ps, by simpa [encodeCommands] using hlen, ?_⟩
  rw [encodeStream, if_pos (List.all_eq_true.2 hwf), hps]

/-! ### Decoding -/

/-- Under `NUM_Q` `BLKDEC` completes for every word when the ports are legal (R83, R182). -/
theorem resultOf_blkdec_numQ (hnum : cfg.num = .exactRational ties) (hw : cfg.widths.legal = true) (p : BitVec 32) :
    ∃ o, resultOf cfg (.blkdec p) = .ok (pxQuadResults o) := by
  have ⟨_, hcw⟩ : 7 ≤ cfg.widths.dw ∧ 8 ≤ cfg.widths.cw := by simpa [Widths.legal] using hw
  obtain ⟨o, ho, -⟩ := decodeBlock_numQ (ties := ties) (C := chromaOfConfig cfg) hcw p
  exact ⟨o, by rw [resultOf, numOf_exact ties hnum, ho]; rfl⟩

/-- A header and its words decode, under `NUM_Q`, to a raster made of one block per word (R55 to R57). -/
theorem decodeStream_written (hnum : cfg.num = .exactRational ties) (hwidths : cfg.widths.legal = true) {w h : Nat}
    (hw : w ≠ 0) (hh : h ≠ 0) {ps : List (BitVec 32)} (hlen : ps.length = w * h) :
    ∃ qs, decodeStream sp cfg (streamHeader sp w h ++ ps.flatMap wordBytes) = .ok (scatter w h qs) := by
  obtain ⟨qs, hqs⟩ := decodedBlocks_completed (resultOf_blkdec_numQ hnum hwidths) ps
  have hread : readWords (w * h) (ps.flatMap wordBytes) = .ok (ps, []) := by
    simpa [hlen] using readWords_wordBytes ps []
  refine ⟨qs, ?_⟩
  rw [decodeStream, parseHeader_streamHeader, if_neg (by simp [hw, hh])]
  simp [hread, hqs]

/-- Settles O60: the raster encodes to a header and one word per block, and such a stream decodes. -/
theorem encodeThenDecodeSucceeds : Obligations.EncodeThenDecodeSucceeds := by
  intro sp cfg ties r hnum hwidths hden hfit hpx hwidth hheight
  have hw : packedWidth r ≠ 0 := by rw [packedWidth]; omega
  have hh : packedHeight r ≠ 0 := by rw [packedHeight]; omega
  obtain ⟨ps, hlen, henc⟩ := encodeStream_normal (sp := sp) hnum hden hfit hpx
  obtain ⟨qs, hdec⟩ := decodeStream_written (sp := sp) hnum hwidths hw hh hlen
  exact ⟨_, _, henc, hdec, two_mul_packedWidth r, two_mul_packedHeight r, rfl, by simp [scatter]⟩

end Sys2Proof.Machine
end

section
/-! The decoder on any port bundle (R70 to R75): which op codes are commands, what a decoded command carries of the ports, and
that it reads no port but those of R71. -/

namespace Sys2Proof

variable {pw : Widths} {p p' : Ports} {i : Instr}

/-! ### Which op codes are commands -/

theorem decode_reserved (h : p.op ∈ reservedOps) : decode pw p = .error (.reservedOp p.op) := by
  simp only [reservedOps, List.mem_cons, List.not_mem_nil, or_false] at h
  unfold decode
  obtain e | e | e | e | e | e | e | e | e | e | e := h <;> rw [e] <;> rfl

/-- The decoder rejects an op code once it has compared it with the table's 21; the other eleven are the reserved ones (R73). -/
theorem reserved_of_decode_error {e : DecodeError} (h : decode pw p = .error e) : p.op ∈ reservedOps := by
  unfold decode at h
  split at h <;> cases h
  have hlt := p.op.isLt
  simp only [imp_false, reservedOps, List.mem_cons, List.not_mem_nil, or_false, ← BitVec.toNat_inj,
    BitVec.reduceToNat] at *
  omega

theorem decode_of_not_reserved (h : p.op ∉ reservedOps) : ∃ i, decode pw p = .ok i := by
  cases hd : decode pw p with
  | ok i => exact ⟨i, rfl⟩
  | error e => exact absurd (reserved_of_decode_error hd) h

/-! ### What a decoded command carries -/

theorem op_of_decode (h : decode pw p = .ok i) : i.op = p.op := by
  unfold decode at h
  split at h <;> cases h <;> exact (BitVec.eq_of_toNat_eq ‹_›).symm

/-- The decoder gives each operand as its port carries it, so carrying it once more changes nothing (R74). -/
theorem carried_of_decode (h : decode pw p = .ok i) : i.carried pw = i := by
  unfold decode at h
  split at h <;> cases h <;> simp [Instr.carried]

/-- What the ports carry of a command is well-formed, whatever its operands (R26, R74). -/
theorem wellFormed_carried (pw : Widths) (i : Instr) : (i.carried pw).wellFormed pw = true := by
  cases i with
  | dqavg q =>
    have hq := (BitVec.ofNat 6 q).isLt
    simpa only [Instr.carried, Instr.wellFormed, decide_eq_true_eq] using hq
  | dqdet q =>
    have hlo := (BitVec.ofInt 6 q).le_toInt
    have hhi := (BitVec.ofInt 6 q).toInt_lt
    simp only [Instr.carried, Instr.wellFormed, Bool.and_eq_true, decide_eq_true_eq]
    omega
  | _ => simp [Instr.carried, Instr.wellFormed, desc_lt, comp_lt]

theorem op_encode (i : Instr) : (encode i).op = i.op := by cases i <;> rfl

/-- The encoding of a decoded command has the bundle's value on every port the command reads (R71, R75). -/
theorem encode_sameOn_of_decode (h : decode pw p = .ok i) : ∀ c ∈ opReads p.op, (encode i).sameOn pw p c = true := by
  unfold decode at h
  split at h <;> cases h <;> simp [opReads, *, encode, Ports.sameOn]

/-- Settles O8: a decoded command is what the ports carry of it, and its encoding drives the ports it was read from. -/
theorem encodeOfDecode : Obligations.EncodeOfDecode := fun pw _ i h =>
  ⟨carried_of_decode h ▸ wellFormed_carried pw i, (op_encode i).trans (op_of_decode h), encode_sameOn_of_decode h⟩

/-- Bundles with the same op code that agree on the ports it reads carry the same command (R75). -/
theorem decode_congr (hop : p.op = p'.op) (h : ∀ c ∈ opReads p.op, p.sameOn pw p' c = true) :
    decode pw p = decode pw p' := by
  unfold opReads at h
  unfold decode
  rw [← hop]
  split at h <;> simp_all [Ports.sameOn]

/-- Settles O6, row by row. -/
theorem tableWordsDecode : Obligations.TableWordsDecode := by
  unfold Obligations.TableWordsDecode
  and_intros <;> rfl

end Sys2Proof

namespace Sys2Proof.Machine

theorem portsResult_reserved {p : Ports} (c : Config) (h : p.op ∈ reservedOps) :
    portsResult c p = .error (.fatal .illegalOp) := by
  simp only [portsResult, decode_reserved h]

/-- A fatal fault's entry is what a claim calls `faulted` (R207). -/
theorem enterFatal_eq_faulted (s : State) (k : FatalKind) : enterFatal s k = faulted s k := rfl

/-- Settles O9, by the two outcomes of the decoder. -/
theorem reservedOpsRaiseIllegalOp : Obligations.ReservedOpsRaiseIllegalOp := fun s p rest h hrun => by
  split
  next hop =>
    rw [step_command h, portsResult_reserved s.cfg hop, finish_fatal (s := { s with inputs := rest }) hrun,
      enterFatal_eq_faulted]
  next hop => exact decode_of_not_reserved hop

/-- Settles O10: what a step answers hangs on the ports through the decoded command alone. -/
theorem unreadPortsAreIgnored : Obligations.UnreadPortsAreIgnored := fun s p p' rest hop h => by
  rw [step_command rfl, step_command rfl, portsResult, portsResult, decode_congr hop h]

/-- Settles O13: a command's end keeps the clear latch or is the entry of a fatal fault. -/
theorem fatalFaultEntry : Obligations.FatalFaultEntry := fun s t p rest h hrun hstep hhalt => by
  rw [step_command h] at hstep
  cases hstep
  obtain ⟨hkept, -⟩ | ⟨-, k, e⟩ := finish_latches { s with inputs := rest } (portsResult s.cfg p)
  · rw [hhalt] at hkept
    exact absurd (hkept.trans hrun) (by decide)
  · exact ⟨k, e, fatal_codes_agree k⟩

end Sys2Proof.Machine
end

section
/-! `BLKENC` and `BLKDEC` (R80 to R83, R181, R182, R201, R204): each chains the other families' functions, and it answers what
they answer or ends in the fault of one of them. -/

namespace Sys2Proof.Machine

variable {s : State} {i : Instr} {N : NumOps} {C : Chroma} {cw : Nat}

/-! ### A command of a running block, by its result -/

theorem exec_of_ok {ports : Results} (hrun : s.halted = false) (h : resultOf s.cfg i = .ok ports) :
    exec i s = .next (completed s ports) := by
  rw [exec_eq, h, finish_ok hrun]
  rfl

theorem exec_of_fatal {k : FatalKind} (hrun : s.halted = false) (h : resultOf s.cfg i = .error (.fatal k)) :
    exec i s = .next (faulted s k) := by
  rw [exec_eq, h, finish_fatal hrun, enterFatal_eq_faulted]

/-- A chain whose first part can only answer or raise a DomainFault, and whose rest raises one after every answer, raises one
(R204, R205). -/
theorem bind_domainFault {α β : Type} {r : Result α} {f : α → Result β} (hr : (∃ v, r = .ok v) ∨ r = raiseDomainFault)
    (h : ∀ v, r = .ok v → f v = raiseDomainFault) : (r >>= f) = raiseDomainFault := by
  obtain ⟨v, rfl⟩ | rfl := hr
  · exact h v rfl
  · rfl

/-! ### BLKENC -/

section Encode

variable {p0 p1 p2 p3 : Pixel} {den : Nat} {t0 t1 t2 t3 : Triple} {k : Quad} {qa qb qc qd : Word}

theorem encodeBlock_zero (p0 p1 p2 p3 : Pixel) : encodeBlock N C p0 p1 p2 p3 0 = raiseDomainFault := by
  simp only [encodeBlock, encodeFields, pixelToYpp, normalizePixel_zero]
  rfl

/-- Without the six fields there is nothing to pack (R181). -/
theorem encodeBlock_noFields (h : encodeFields N C p0 p1 p2 p3 den = raiseDomainFault) :
    encodeBlock N C p0 p1 p2 p3 den = raiseDomainFault := by
  simp only [encodeBlock, h]
  rfl

/-- A field that does not fit its place is a fatal Overflow (R181 step 5, R201). -/
theorem encodeBlock_overflow {f : PackedFields} (hf : encodeFields N C p0 p1 p2 p3 den = .ok f)
    (h : ¬ (fitsU f.a 6 = true ∧ fitsS f.b 6 = true ∧ fitsS f.c 6 = true ∧ fitsS f.d 6 = true)) :
    encodeBlock N C p0 p1 p2 p3 den = .error (.fatal .overflow) := by
  obtain ⟨ha, hb, hc, hd, -⟩ | ⟨-, e⟩ := pack6_cases f
  · exact absurd ⟨ha, hb, hc, hd⟩ h
  · simp only [encodeBlock, hf, bind, Except.bind, e]
    rfl

/-- `QAVG` answers or raises a DomainFault, nothing else (R161, R200). -/
theorem quantizeAverage_answers (N : NumOps) (a : F) :
    (∃ v, quantizeAverage N a = .ok v) ∨ quantizeAverage N a = raiseDomainFault := by
  obtain ⟨z, -, -, -, e⟩ | ⟨-, e⟩ := quantizeAverage_cases N a
  · exact .inl ⟨_, e⟩
  · exact .inr e

theorem quantizeBlock_ok (hk : k = forwardTransform N ⟨t0.x0, t1.x0, t2.x0, t3.x0⟩)
    (ha : quantizeAverage N k.x0 = .ok qa) (hb : quantizeDetail N k.x1 = .ok qb) (hc : quantizeDetail N k.x2 = .ok qc)
    (hd : quantizeDetail N k.x3 = .ok qd) :
    quantizeBlock N C t0 t1 t2 t3 = .ok ⟨qa, qb, qc, qd,
      (C.indexOf (averageChroma N t0.x1 t1.x1 t2.x1 t3.x1)).setWidth 64,
      (C.indexOf (averageChroma N t0.x2 t1.x2 t2.x2 t3.x2)).setWidth 64⟩ := by
  subst hk
  simp only [quantizeBlock, ha, hb, hc, hd]
  rfl

/-- One quantizer without an answer is a DomainFault of the block: the others answer or raise the same (R181, R204). -/
theorem quantizeBlock_fault (hk : k = forwardTransform N ⟨t0.x0, t1.x0, t2.x0, t3.x0⟩)
    (h : quantizeAverage N k.x0 = raiseDomainFault ∨ quantizeDetail N k.x1 = raiseDomainFault ∨
      quantizeDetail N k.x2 = raiseDomainFault ∨ quantizeDetail N k.x3 = raiseDomainFault) :
    quantizeBlock N C t0 t1 t2 t3 = raiseDomainFault := by
  subst hk
  exact bind_domainFault (quantizeAverage_answers N _) fun qa ha =>
    bind_domainFault (quantizeDetail_cases N _) fun qb hb =>
    bind_domainFault (quantizeDetail_cases N _) fun qc hc =>
    bind_domainFault (quantizeDetail_cases N _) fun qd hd => by
      simp [ha, hb, hc, hd, raiseDomainFault] at h

end Encode

/-- Settles O46: the six fields are made unless a quantizer has no answer, and then they pack unless one does not fit. -/
theorem blkencPacksTheSixFields : Obligations.BlkencPacksTheSixFields := by
  refine ⟨fun pw p hop => by simp only [decode, hop]; rfl, fun s p0 p1 p2 p3 hrun => ?_, ?_⟩
  · exact exec_of_fatal hrun (by rw [resultOf, encodeBlock_zero]; rfl)
  · intro s p0 p1 p2 p3 den N C t k hrun hN hC hden ht hk
    subst hN hC
    have hfields := encodeFields_eq (C := chromaOfConfig s.cfg) (p0 := p0) (p1 := p1) (p2 := p2) (p3 := p3) hden ht
    refine ⟨fun hfault => ?_, fun qa qb qc qd ha hb hc hd => ?_⟩
    · rw [quantizeBlock_fault hk hfault] at hfields
      exact exec_of_fatal hrun (by rw [resultOf, encodeBlock_noFields hfields]; rfl)
    · rw [quantizeBlock_ok hk ha hb hc hd] at hfields
      refine ⟨fun fa fb fc fd => ?_, fun hover => ?_⟩
      · exact exec_of_ok hrun (by rw [resultOf, encodeBlock_fits hfields fa fb fc fd]; rfl)
      · exact exec_of_fatal hrun (by rw [resultOf, encodeBlock_overflow hfields hover]; rfl)

/-! ### BLKDEC -/

/-- A field of the PackedBlock, read from the Word it is extended to, has the block's bits at its place (R80, R82). -/
theorem setWidth_field_extend (packed : BitVec 32) (w l : Nat) :
    (field (packed.setWidth 64) w l).setWidth w = packed.extractLsb' l w := by
  apply BitVec.eq_of_getLsbD_eq
  intro i hi
  have hwide : packed.getLsbD (l + i) = true → l + i < 64 := fun h => (BitVec.lt_of_getLsbD h).trans (by omega)
  simpa [hi] using hwide

/-- Sign extension keeps the low bits (R106). -/
theorem setWidth_sext64_field (W : Word) {w : Nat} (hw : w ≤ 64) (l : Nat) :
    (sext64 (field W w l) w).setWidth w = (field W w l).setWidth w := by
  apply BitVec.eq_of_getLsbD_eq
  intro i hi
  have hhigh : ∀ j, w ≤ j → (field W w l).getLsbD j = false := fun j hj => by simp [Nat.not_lt.2 hj]
  rw [BitVec.getLsbD_setWidth, BitVec.getLsbD_setWidth, getLsbD_sext64 hhigh (by omega), if_pos hi]

/-- The six gets of `BLKDEC` read the fields of R80 at their places. -/
theorem unpack6_extend (packed : BitVec 32) :
    ∃ f, unpack6 (packed.setWidth 64) = .ok f ∧
      f.a.setWidth 6 = packed.extractLsb' 26 6 ∧ f.b.setWidth 6 = packed.extractLsb' 20 6 ∧
      f.c.setWidth 6 = packed.extractLsb' 14 6 ∧ f.d.setWidth 6 = packed.extractLsb' 8 6 ∧
      f.pb.setWidth 4 = packed.extractLsb' 4 4 ∧ f.pr.setWidth 4 = packed.extractLsb' 0 4 := by
  refine ⟨_, unpack6_eq _, ?_⟩
  simp only [setWidth_sext64_field _ (show 6 ≤ 64 by omega), setWidth_field_extend, and_self]

/-- The four coefficients that a PackedBlock stands for (R182 step 2). -/
def packedCoefficients (N : NumOps) (packed : BitVec 32) : Quad :=
  ⟨dequantizeAverage N (packed.extractLsb' 26 6).toNat, dequantizeDetail N (packed.extractLsb' 20 6).toInt,
    dequantizeDetail N (packed.extractLsb' 14 6).toInt, dequantizeDetail N (packed.extractLsb' 8 6).toInt⟩

/-- The pixel of a PackedBlock at a position with luma `y` (R182 step 4). -/
def packedPixel (N : NumOps) (C : Chroma) (cw : Nat) (packed : BitVec 32) (y : F) : Result Pixel :=
  pixelFromYpp N cw ⟨y, C.chromaOf (packed.extractLsb' 4 4), C.chromaOf (packed.extractLsb' 0 4)⟩

/-- `BLKDEC` is the pixels of its four positions, in order (R182). -/
theorem decodeBlock_eq {y : Quad} (packed : BitVec 32) (hy : y = inverseTransform N (packedCoefficients N packed)) :
    decodeBlock N C cw packed = do
      let o0 ← packedPixel N C cw packed y.x0
      let o1 ← packedPixel N C cw packed y.x1
      let o2 ← packedPixel N C cw packed y.x2
      let o3 ← packedPixel N C cw packed y.x3
      return ⟨o0, o1, o2, o3⟩ := by
  subst hy
  obtain ⟨f, hf, ha, hb, hc, hd, hpb, hpr⟩ := unpack6_extend packed
  simp only [decodeBlock, hf, packedCoefficients, packedPixel, ← ha, ← hb, ← hc, ← hd, ← hpb, ← hpr]
  rfl

/-- A position has its pixel or raises a DomainFault, nothing else (R182, R204). -/
theorem packedPixel_answers (N : NumOps) (C : Chroma) (cw : Nat) (packed : BitVec 32) (y : F) :
    (∃ o, packedPixel N C cw packed y = .ok o) ∨ packedPixel N C cw packed y = raiseDomainFault := by
  obtain ⟨r, g, b, -, -, -, e⟩ | ⟨-, e⟩ := denormalize_cases N cw _ 255
  · exact .inl ⟨_, e⟩
  · exact .inr e

/-- Settles O50: the four positions' pixels come in order, and the first that is missing ends the command. -/
theorem blkdecComputesEachPixel : Obligations.BlkdecComputesEachPixel := by
  refine ⟨fun pw p hop => by simp only [decode, hop]; rfl, ?_⟩
  intro s packed N C y pixel hrun hN hC hy hpixel
  obtain rfl : pixel = packedPixel N C s.cfg.widths.cw packed := funext hpixel
  subst hN hC
  have hdec := decodeBlock_eq (C := chromaOfConfig s.cfg) (cw := s.cfg.widths.cw) packed hy
  split
  next o0 o1 o2 o3 e0 e1 e2 e3 =>
    rw [e0, e1, e2, e3] at hdec
    exact exec_of_ok hrun (by rw [resultOf, hdec]; rfl)
  next hnone =>
    refine exec_of_fatal hrun ?_
    rw [resultOf, hdec, bind_domainFault (packedPixel_answers _ _ _ _ _) fun o0 e0 =>
      bind_domainFault (packedPixel_answers _ _ _ _ _) fun o1 e1 =>
      bind_domainFault (packedPixel_answers _ _ _ _ _) fun o2 e2 =>
      bind_domainFault (packedPixel_answers _ _ _ _ _) fun o3 e3 => (hnone o0 o1 o2 o3 e0 e1 e2 e3).elim]
    rfl

/-- Settles O51: under `NUM_Q` a word decodes to components in 0..255 at any port width of at least 8 bits. -/
theorem blkdecDecodesEveryWord : Obligations.BlkdecDecodesEveryWord := fun s ties packed hrun hnum hw => by
  have ⟨_, hcw⟩ : 7 ≤ s.cfg.widths.dw ∧ 8 ≤ s.cfg.widths.cw := by simpa [Widths.legal] using hw
  obtain ⟨o, ho, hrange⟩ := decodeBlock_numQ (ties := ties) (C := chromaOfConfig s.cfg) hcw packed
  exact ⟨o.p0, o.p1, o.p2, o.p3, exec_of_ok hrun (by rw [resultOf, numOf_exact ties hnum, ho]; rfl), hrange⟩

end Sys2Proof.Machine
end

section
/-! The BitField commands (R100 to R111): a set is one operation in two kinds that differ in the fit alone, and the laws of R109
are facts about the bits of a field. -/

namespace Sys2Proof.Machine

variable {s : State} {W v v' W' : Word} {w l w' l' : Nat}

/-! ### The fit predicates, at every width (R102) -/

theorem fitsU_eq (v : Word) (w : Nat) : fitsU v w = decide (64 ≤ w ∨ v.toNat < 2 ^ w) := by
  rw [Bool.eq_iff_iff, fitsU_iff, decide_eq_true_iff]
  exact ⟨.inr, fun h => h.elim (fun hw => v.isLt.trans_le (Nat.pow_le_pow_right two_pos hw)) id⟩

theorem fitsS_eq (v : Word) (w : Nat) :
    fitsS v w = decide (64 ≤ w ∨ (w ≠ 0 ∧ -(2 ^ (w - 1) : Int) ≤ v.toInt ∧ v.toInt < 2 ^ (w - 1))) := by
  rw [fitsS, s64_eq_toInt]
  split
  next hw => simp [hw]
  next hw =>
    split
    next h0 => simp [h0]
    next h0 => simp [hw, h0]

/-- The signed fit at a width that a descriptor can have: width 0 holds no value (R102). -/
theorem fitsS_iff_of_le (hw : w ≤ 64) :
    fitsS v w = true ↔ 0 < w ∧ -(2 ^ (w - 1) : Int) ≤ v.toInt ∧ v.toInt < 2 ^ (w - 1) := by
  rcases Nat.eq_zero_or_pos w with rfl | hpos
  · simp [fitsS]
  · rw [fitsS_iff hpos hw, and_iff_right hpos]

/-! ### Fields and their replacement (R41, R105 to R109) -/

theorem field_eq_ofNat (W : Word) (w l : Nat) : field W w l = BitVec.ofNat 64 (W.toNat / 2 ^ l % 2 ^ w) := by
  rw [← toNat_field, BitVec.ofNat_toNat, BitVec.setWidth_eq]

theorem toNat_field_lt (W : Word) (w l : Nat) : (field W w l).toNat < 2 ^ w := by
  rw [toNat_field]
  exact Nat.mod_lt _ (Nat.two_pow_pos w)

/-- A field has no bit above its width (R105). -/
theorem getLsbD_field_of_ge (W : Word) (l : Nat) {i : Nat} (h : w ≤ i) : (field W w l).getLsbD i = false := by
  simp [Nat.not_lt.2 h]

/-- A signed field has the field's bits below its width (R106). -/
theorem getLsbD_sext64_field (W : Word) (l : Nat) (hw : w ≤ 64) {i : Nat} (hi : i < w) :
    (sext64 (field W w l) w).getLsbD i = W.getLsbD (l + i) := by
  rw [getLsbD_sext64 (fun _ => getLsbD_field_of_ge W l) (hi.trans_le hw), if_pos hi, getLsbD_field]
  simp [hi]

theorem fitsU_field (W : Word) (w l : Nat) : fitsU (field W w l) w = true :=
  (fitsU_iff _ _).2 (toNat_field_lt W w l)

/-- What a signed get answers fits its field (R106, R109 (ii)). -/
theorem fitsS_sext64_field (W : Word) (l : Nat) (hpos : 0 < w) (hw : w ≤ 64) :
    fitsS (sext64 (field W w l) w) w = true := by
  have hlt := toNat_field_lt W w l
  have hpow : 2 ^ w = 2 * 2 ^ (w - 1) := (mul_pow_sub_one hpos.ne' 2).symm
  have hpowInt : (2 : Int) ^ w = 2 * 2 ^ (w - 1) := (mul_pow_sub_one hpos.ne' 2).symm
  have hcast : ((2 ^ (w - 1) : Nat) : Int) = 2 ^ (w - 1) := by push_cast; rfl
  rw [fitsS_iff hpos hw, toInt_sext64 hpos hw hlt]
  split <;> omega

/-- Modulo `2^w`, a signed field is the field (R109 (iii)). -/
theorem sext64_field_mod (W : Word) (l : Nat) (hw : w ≤ 64) :
    BitVec.ofNat 64 ((sext64 (field W w l) w).toNat % 2 ^ w) = field W w l := by
  apply BitVec.eq_of_getLsbD_eq
  intro i hi
  rw [BitVec.getLsbD_ofNat, Nat.testBit_mod_two_pow, ← BitVec.getLsbD, getLsbD_field]
  by_cases h : i < w
  · rw [getLsbD_sext64_field W l hw h]
    simp [h, hi]
  · simp [h]

/-- Setting a field to a value with the bits it holds changes nothing (R109 (ii)). -/
theorem setField_of_held (h : w + l ≤ 64) (hv : ∀ i < w, v.getLsbD i = W.getLsbD (l + i)) : setField W w l v = W := by
  apply BitVec.eq_of_getLsbD_eq
  intro i _
  rw [getLsbD_setField W v h]
  split
  · rw [hv _ (by omega), Nat.add_sub_cancel' (by omega)]
  · rfl

/-- Sets to fields without a common bit commute (R109 (i)). -/
theorem setField_comm (h : w + l ≤ 64) (h' : w' + l' ≤ 64) (hd : l + w ≤ l' ∨ l' + w' ≤ l) :
    setField (setField W w l v) w' l' v' = setField (setField W w' l' v') w l v := by
  apply BitVec.eq_of_getLsbD_eq
  intro i _
  simp only [getLsbD_setField _ _ h, getLsbD_setField _ _ h']
  by_cases hi : l ≤ i ∧ i < l + w
  · rw [if_pos hi, if_pos hi, if_neg (by omega)]
  · rw [if_neg hi, if_neg hi]

/-- Of two sets to one field the second counts (R109 (iv)). -/
theorem setField_setField (h : w + l ≤ 64) : setField (setField W w l v) w l v' = setField W w l v' := by
  apply BitVec.eq_of_getLsbD_eq
  intro i _
  simp only [getLsbD_setField _ _ h]
  split <;> rfl

/-! ### The set of either kind -/

/-- The fit check of one signedness (R107, R108). -/
def fitsBy (signed : Bool) : Word → Nat → Bool := if signed then fitsS else fitsU

/-- Everything a set can do: the descriptor first, then the fit (R107, R108). -/
theorem setBy_eq (k : Bool) (W v : Word) (w l : Nat) : setBy k W w l v =
    if 64 < w + l then raiseContractViolation
    else if fitsBy k v w then .ok (setField W w l v) else raiseOverflow := by
  have hdo : setBy k W w l v = (do
      checkDesc w l
      if fitsBy k v w then return setField W w l v else raiseOverflow) := by cases k <;> rfl
  rw [hdo]
  rcases Nat.lt_or_ge 64 (w + l) with h | h
  · rw [if_pos h, checkDesc_malformed h]
    rfl
  · rw [if_neg (Nat.not_lt.2 h), checkDesc_legal h]
    rfl

theorem setBy_eq_ok_iff {k : Bool} :
    setBy k W w l v = .ok W' ↔ w + l ≤ 64 ∧ fitsBy k v w = true ∧ setField W w l v = W' := by
  rw [setBy_eq]
  split
  next h => simp [raiseContractViolation, Nat.not_le.2 h]
  next h =>
    rw [and_iff_right (Nat.not_lt.1 h)]
    split
    next hf => simp [hf]
    next hf => simp [raiseOverflow, hf]

/-- A get answers only when its descriptor is legal (R101). -/
theorem getU_eq_ok_iff : getU W w l = .ok v ↔ w + l ≤ 64 ∧ field W w l = v := by
  rcases Nat.lt_or_ge 64 (w + l) with h | h
  · simp [getU_malformed h, raiseContractViolation, Nat.not_le.2 h]
  · simp [getU_legal h, h]

theorem getS_eq_ok_iff (hpos : 0 < w) : getS W w l = .ok v ↔ w + l ≤ 64 ∧ sext64 (field W w l) w = v := by
  rcases Nat.lt_or_ge 64 (w + l) with h | h
  · simp [getS_malformed h, raiseContractViolation, Nat.not_le.2 h]
  · simp [getS_legal h, h, hpos.ne']

/-- Settles O27: each law is one about the bits of a Word, since the set of either kind answers only a replaced field. -/
theorem fieldSetLaws : Obligations.FieldSetLaws := by
  refine ⟨?_, ?_, ?_, ?_, ?_⟩
  · intro k k' W v v' w l w' l' h h' hd W1 W2 W12 W21 e1 e12 e2 e21
    obtain ⟨-, -, rfl⟩ := setBy_eq_ok_iff.1 e1
    obtain ⟨-, -, rfl⟩ := setBy_eq_ok_iff.1 e12
    obtain ⟨-, -, rfl⟩ := setBy_eq_ok_iff.1 e2
    obtain ⟨-, -, rfl⟩ := setBy_eq_ok_iff.1 e21
    exact setField_comm h h' hd
  · intro W v w l e
    obtain ⟨h, rfl⟩ := getU_eq_ok_iff.1 e
    rw [setU_fits h (fitsU_field W w l), setField_of_held h fun i hi => by simp [hi]]
  · intro W v w l hpos e
    obtain ⟨h, rfl⟩ := (getS_eq_ok_iff hpos).1 e
    have hw : w ≤ 64 := by omega
    rw [setS_fits h (fitsS_sext64_field W l hpos hw), setField_of_held h fun i => getLsbD_sext64_field W l hw]
  · intro W v w l hpos e
    obtain ⟨h, rfl⟩ := (getS_eq_ok_iff hpos).1 e
    rw [getU_legal h, sext64_field_mod W l (by omega)]
  · intro k k' W v v' W1 w l e
    obtain ⟨h, -, rfl⟩ := setBy_eq_ok_iff.1 e
    rw [setBy_eq, setBy_eq, setField_setField h]

/-! ### The commands -/

/-- Settles O19: `FITSU` answers the fit itself, which is no fault for any operand. -/
theorem fitsuCompletes : Obligations.FitsuCompletes :=
  ⟨fun pw p hop => by simp only [decode, hop]; rfl, fun s value width hrun =>
    exec_of_ok hrun (by rw [resultOf, fitsU_eq])⟩

/-- Settles O20: `FITSS` answers the fit itself, which is no fault for any operand. -/
theorem fitssCompletes : Obligations.FitssCompletes :=
  ⟨fun pw p hop => by simp only [decode, hop]; rfl, fun s value width hrun =>
    exec_of_ok hrun (by rw [resultOf, fitsS_eq])⟩

theorem exec_getu_legal (hrun : s.halted = false) (h : w + l ≤ 64) :
    exec (.getu W w l) s = .next (completed s { value := some (field W w l) }) :=
  exec_of_ok hrun (by rw [resultOf, getU_legal h]; rfl)

theorem exec_gets_legal (hrun : s.halted = false) (h : w + l ≤ 64) : exec (.gets W w l) s =
    .next (completed s { value := some (if w = 0 then 0 else sext64 (field W w l) w) }) :=
  exec_of_ok hrun (by rw [resultOf, getS_legal h]; rfl)

/-- Settles O21: the descriptor check decides, and a legal field is the quotient's residue. -/
theorem getuCompletes : Obligations.GetuCompletes := by
  refine ⟨fun pw p hop => by simp only [decode, hop]; rfl, fun s word width lsb hrun => ⟨fun h => ?_, fun h => ?_⟩⟩
  · rw [← field_eq_ofNat]
    exact exec_getu_legal hrun h
  · exact exec_of_fatal hrun (by rw [resultOf, getU_malformed h]; rfl)

/-- Settles O22: a legal field of width above 0 is extended from its top bit. -/
theorem getsCompletes : Obligations.GetsCompletes := by
  refine ⟨fun pw p hop => by simp only [decode, hop]; rfl, fun s word width lsb hrun => ⟨fun h => ?_, fun h => ?_⟩⟩
  · refine ⟨_, exec_gets_legal hrun h, fun h0 => if_pos h0, fun hpos => ?_⟩
    rw [if_neg hpos.ne', toInt_sext64 hpos (by omega) (toNat_field_lt word width lsb), toNat_field]
  · exact exec_of_fatal hrun (by rw [resultOf, getS_malformed h]; rfl)

/-- The set command of one signedness. -/
def setCommand (signed : Bool) (W : Word) (w l : Nat) (v : Word) : Instr :=
  if signed then .sets W w l v else .setu W w l v

theorem resultOf_setCommand (c : Config) (k : Bool) (W v : Word) (w l : Nat) :
    resultOf c (setCommand k W w l v) = (setBy k W w l v).map fun W' => { word := some W' } := by
  cases k <;> rfl

/-- An Overflow that leaves a running block's command is recoverable (R206). -/
theorem exec_of_overflow {i : Instr} (hrun : s.halted = false) (h : resultOf s.cfg i = .error .overflow) :
    exec i s = .next (overflowed s) := by
  rw [exec_eq, h, finish_overflow hrun]
  rfl

variable {k : Bool}

theorem exec_setCommand_malformed (hrun : s.halted = false) (h : 64 < w + l) :
    exec (setCommand k W w l v) s = .next (faulted s .contractViolation) :=
  exec_of_fatal hrun (by rw [resultOf_setCommand, setBy_eq, if_pos h]; rfl)

theorem exec_setCommand_overflow (hrun : s.halted = false) (h : w + l ≤ 64) (hf : ¬ fitsBy k v w = true) :
    exec (setCommand k W w l v) s = .next (overflowed s) :=
  exec_of_overflow hrun (by rw [resultOf_setCommand, setBy_eq, if_neg (by omega), if_neg hf]; rfl)

theorem exec_setCommand_fits (hrun : s.halted = false) (h : w + l ≤ 64) (hf : fitsBy k v w = true) :
    exec (setCommand k W w l v) s = .next (completed s { word := some (setField W w l v) }) :=
  exec_of_ok hrun (by rw [resultOf_setCommand, setBy_eq, if_neg (by omega), if_pos hf]; rfl)

/-- Settles O23, by the three ends of a set with the unsigned fit. -/
theorem setuCompletes : Obligations.SetuCompletes :=
  ⟨fun pw p hop => by simp only [decode, hop]; rfl, fun s word value width lsb hrun =>
    ⟨exec_setCommand_malformed (k := false) hrun,
      fun h hf => exec_setCommand_overflow (k := false) hrun h (mt (fitsU_iff value width).1 hf),
      fun h hf => ⟨_, exec_setCommand_fits (k := false) hrun h ((fitsU_iff value width).2 hf),
        fun i _ => getLsbD_setField word value h i⟩⟩⟩

/-- Settles O24, by the three ends of a set with the signed fit. -/
theorem setsCompletes : Obligations.SetsCompletes := by
  refine ⟨fun pw p hop => by simp only [decode, hop]; rfl, fun s word value width lsb hrun =>
    ⟨exec_setCommand_malformed (k := true) hrun, fun h hf => ?_, fun h hpos hlo hhi => ?_⟩⟩
  · exact exec_setCommand_overflow (k := true) hrun h (mt (fitsS_iff_of_le (by omega)).1 hf)
  · exact ⟨_, exec_setCommand_fits (k := true) hrun h ((fitsS_iff_of_le (by omega)).2 ⟨hpos, hlo, hhi⟩),
      fun i _ => getLsbD_setField word value h i⟩

/-- Settles O25: the field just set is the value. -/
theorem getuAfterSetu : Obligations.GetuAfterSetu := fun s word value width lsb hrun h hlt => by
  have hf : fitsU value width = true := (fitsU_iff value width).2 hlt
  refine ⟨_, exec_setCommand_fits (k := false) hrun h hf, ?_⟩
  rw [exec_getu_legal hrun h, field_setField h hf]

/-- Settles O26: the field just set is the value's low bits, whose extension is the value. -/
theorem getsAfterSets : Obligations.GetsAfterSets := fun s word value width lsb hrun h hpos hlo hhi => by
  have hw : width ≤ 64 := by omega
  have hf : fitsS value width = true := (fitsS_iff hpos hw).2 ⟨hlo, hhi⟩
  refine ⟨_, exec_setCommand_fits (k := true) hrun h hf, ?_⟩
  rw [exec_gets_legal hrun h, if_neg hpos.ne', field_setField_low h, sext64_low hpos hw hf]

end Sys2Proof.Machine
end

section
/-! The ColorTransform commands (R130 to R135): under `NUM_Q` the two color maps are the document's rational matrices, and `CLAMP01`
and `DENORM` follow from what one lane does. -/

namespace Sys2Proof.Machine

variable {s : State} {N : NumOps} {ties : RoundTies} {cw den : Nat} {x : F} {t : Triple}

/-! ### NORM (R131) -/

/-- Settles O28: the denominator alone decides between the quotients and the fault. -/
theorem normCompletes : Obligations.NormCompletes := by
  refine ⟨fun pw p hop => by simp only [decode, hop]; rfl, fun s px den hrun => ⟨?_, ?_, ?_⟩⟩
  · rintro rfl
    exact exec_of_fatal hrun (by rw [resultOf, normalizePixel_zero]; rfl)
  · rintro hden N rfl
    exact exec_of_ok hrun (by rw [resultOf, normalizePixel_nonzero _ _ hden]; rfl)
  · intro hden ties hnum
    exact exec_of_ok hrun (by rw [resultOf, numOf_exact ties hnum, normalizePixel_nonzero _ _ hden]; rfl)

/-! ### RGB2YPP and YPP2RGB (R132, R133) -/

theorem toLumaChroma_numQ (r g b : Rat) : toLumaChroma (numQ ties) ⟨r, g, b⟩ =
    ⟨299 / 1000 * r + 587 / 1000 * g + 114 / 1000 * b,
      -168736 / 1000000 * r - 331264 / 1000000 * g + 1 / 2 * b,
      1 / 2 * r - 418688 / 1000000 * g - 81312 / 1000000 * b⟩ := by
  simp only [toLumaChroma, numQ_add, numQ_sub, numQ_mul, numQ_flit]
  norm_num

theorem toRgb_numQ (y pb pr : Rat) : toRgb (numQ ties) ⟨y, pb, pr⟩ =
    ⟨y + 1402 / 1000 * pr, y - 344136 / 1000000 * pb - 714136 / 1000000 * pr, y + 1772 / 1000 * pb⟩ := by
  simp only [toRgb, numQ_add, numQ_sub, numQ_mul, numQ_flit]
  norm_num

/-- Settles O29: the command answers its map, which under `NUM_Q` is the document's matrix. -/
theorem rgb2yppCompletes : Obligations.Rgb2yppCompletes := by
  refine ⟨fun pw p hop => by simp only [decode, hop]; rfl, fun s r g b hrun => ⟨?_, fun ties hnum => ?_⟩⟩
  · rintro N rfl
    exact exec_of_ok hrun rfl
  · exact exec_of_ok hrun (by rw [resultOf, numOf_exact ties hnum, toLumaChroma_numQ]; rfl)

/-- Settles O31: the command answers its map, which under `NUM_Q` is the document's matrix. -/
theorem ypp2rgbCompletes : Obligations.Ypp2rgbCompletes := by
  refine ⟨fun pw p hop => by simp only [decode, hop]; rfl, fun s y pb pr hrun => ⟨?_, fun ties hnum => ?_⟩⟩
  · rintro N rfl
    exact exec_of_ok hrun rfl
  · exact exec_of_ok hrun (by rw [resultOf, numOf_exact ties hnum, toRgb_numQ]; rfl)

/-- Settles O30: the luma weights sum to 1; in each chroma row the positive weight is 1/2 and the negative ones sum to −1/2. -/
theorem lumaChromaRanges : Obligations.LumaChromaRanges := by
  refine fun ties => ⟨fun t => ?_, fun r g b hr0 hr1 hg0 hg1 hb0 hb1 => ?_⟩
  · rw [toLumaChroma_numQ, Triple.mk.injEq]
    exact ⟨by ring, by ring, by ring⟩
  · obtain ⟨hlo, hhi⟩ := luma_unit (ties := ties) ⟨hr0, hr1⟩ ⟨hg0, hg1⟩ ⟨hb0, hb1⟩
    refine ⟨hlo, hhi, ?_, ?_⟩ <;> rw [toLumaChroma_numQ, abs_le] <;> constructor <;> linarith

/-! ### CLAMP01 (R134) -/

theorem clampLane_below (h : N.lt x (N.fint 0) = true) : clampLane N x = N.fint 0 := by
  rw [clampLane, if_pos h]

theorem clampLane_above (h0 : N.lt x (N.fint 0) = false) (h1 : N.gt x (N.fint 1) = true) :
    clampLane N x = N.fint 1 := by
  rw [clampLane, if_neg (by simp [h0]), if_pos h1]

/-- A lane that fails both tests passes through. -/
theorem clampLane_between (h0 : N.lt x (N.fint 0) = false) (h1 : N.gt x (N.fint 1) = false) : clampLane N x = x := by
  rw [clampLane, if_neg (by simp [h0]), if_neg (by simp [h1])]

/-- Each of the three values of a clamped lane is clamped to itself, unless `NUM` orders 1 below 0. -/
theorem clampLane_clampLane (h10 : N.lt (N.fint 1) (N.fint 0) = false) (h01 : N.gt (N.fint 0) (N.fint 1) = false)
    (x : F) : clampLane N (clampLane N x) = clampLane N x := by
  cases h0 : N.lt x (N.fint 0) with
  | true =>
    rw [clampLane_below h0]
    cases hzero : N.lt (N.fint 0) (N.fint 0) with
    | true => exact clampLane_below hzero
    | false => exact clampLane_between hzero h01
  | false =>
    cases h1 : N.gt x (N.fint 1) with
    | true =>
      rw [clampLane_above h0 h1]
      cases hone : N.gt (N.fint 1) (N.fint 1) with
      | true => exact clampLane_above h10 hone
      | false => exact clampLane_between h10 hone
    | false => rw [clampLane_between h0 h1, clampLane_between h0 h1]

theorem clamp01_clamp01 (h10 : N.lt (N.fint 1) (N.fint 0) = false) (h01 : N.gt (N.fint 0) (N.fint 1) = false)
    (t : Triple) : clamp01 N (clamp01 N t) = clamp01 N t := by
  simp only [clamp01, clampLane_clampLane h10 h01]

/-- Settles O32, by the three branches of one lane. -/
theorem clamp01Completes : Obligations.Clamp01Completes := by
  refine ⟨fun pw p hop => by simp only [decode, hop]; rfl, fun N t h10 h01 => clamp01_clamp01 h10 h01 t,
    fun ties t => clamp01_clamp01 (by simp) (by simp) t, fun s n0 n1 n2 hrun => ⟨?_, fun ties hnum => ?_⟩⟩
  · rintro N rfl
    exact ⟨clampLane (numOf s.cfg), exec_of_ok hrun rfl,
      fun x => ⟨clampLane_below, clampLane_above, clampLane_between⟩⟩
  · simp only [← clampLane_numQ ties]
    exact exec_of_ok hrun (by rw [resultOf, numOf_exact ties hnum]; rfl)

/-! ### DENORM (R135) -/

/-- A lane whose product has no integer image on the port is a DomainFault (R204). -/
theorem denormLane_fault
    (h : ∀ z, N.ftrunc (N.mul x (N.fint den)) = some z → z < 0 ∨ 2 ^ cw - 1 < z) :
    denormLane N cw x den = raiseDomainFault := by
  obtain ⟨z, hz, hlo, hhi, -⟩ | ⟨-, e⟩ := denormLane_cases N cw x den
  · have := h z hz
    omega
  · exact e

theorem denormalize_ok {r g b : Nat} (hr : denormLane N cw t.x0 den = .ok r) (hg : denormLane N cw t.x1 den = .ok g)
    (hb : denormLane N cw t.x2 den = .ok b) : denormalize N cw t den = .ok ⟨r, g, b⟩ := by
  rw [denormalize, hr, hg, hb]
  rfl

/-- One lane without a component is a DomainFault of the pixel. -/
theorem denormalize_fault (h : ∃ x ∈ [t.x0, t.x1, t.x2], denormLane N cw x den = raiseDomainFault) :
    denormalize N cw t den = raiseDomainFault := by
  obtain ⟨r, g, b, hr, hg, hb, -⟩ | ⟨-, e⟩ := denormalize_cases N cw t den
  · simp [hr, hg, hb, raiseDomainFault] at h
  · exact e

/-- Settles O33: three lanes on their ports make the pixel, and one lane off its port is the command's fault. -/
theorem denormCompletes : Obligations.DenormCompletes := by
  refine ⟨fun pw p hop => by simp only [decode, hop]; rfl, ?_⟩
  rintro s n0 n1 n2 den N hrun rfl
  refine ⟨fun t0 t1 t2 e0 e1 e2 hport => ?_, fun ⟨x, hx, hoff⟩ => ?_⟩
  · simp only [List.forall_mem_cons, List.not_mem_nil, false_implies, implies_true, and_true] at hport
    obtain ⟨⟨lo0, hi0⟩, ⟨lo1, hi1⟩, ⟨lo2, hi2⟩⟩ := hport
    have hpixel := denormalize_ok (t := ⟨n0, n1, n2⟩) (denormLane_fits e0 lo0 hi0) (denormLane_fits e1 lo1 hi1)
      (denormLane_fits e2 lo2 hi2)
    exact exec_of_ok hrun (by rw [resultOf, hpixel]; rfl)
  · exact exec_of_fatal hrun (by rw [resultOf, denormalize_fault ⟨x, hx, denormLane_fault hoff⟩]; rfl)

/-- Above −1 truncation is the floor, 0 where that is negative. -/
theorem ftruncQ_of_gt_neg_one {y : Rat} (h : -1 < y) : ftruncQ y = max 0 ⌊y⌋ := by
  rcases lt_or_ge y 0 with hneg | hpos
  · have hfrac : ⌊-y⌋ = 0 := Int.floor_eq_zero_iff.2 ⟨by linarith, by linarith⟩
    have hfloor : ⌊y⌋ < 0 := Int.floor_lt.2 (by simpa using hneg)
    rw [ftruncQ_of_neg y hneg, hfrac, max_eq_left hfloor.le, neg_zero]
  · rw [ftruncQ_of_nonneg y hpos, max_eq_right (Int.floor_nonneg.2 hpos)]

/-- Under `NUM_Q` a lane whose product lies between −1 and `2^CW` answers its floor, 0 where that is negative. -/
theorem denormLane_numQ {x : Rat} (hlo : -1 < x * den) (hhi : x * den < 2 ^ cw) :
    denormLane (numQ ties) cw x den = .ok ⌊x * den⌋.toNat := by
  have htrunc : (numQ ties).ftrunc ((numQ ties).mul x ((numQ ties).fint den)) = some (max 0 ⌊x * den⌋) := by
    rw [numQ_ftrunc, numQ_mul, numQ_fint, Int.cast_natCast, ftruncQ_of_gt_neg_one hlo]
  have hfloor : ⌊x * den⌋ < 2 ^ cw := Int.floor_lt.2 (by exact_mod_cast hhi)
  have hport : (0 : Int) < 2 ^ cw := by positivity
  rw [denormLane_fits htrunc (le_max_left _ _) (by omega)]
  congr 1
  omega

/-- Under `NUM_Q` three such lanes complete. -/
theorem exec_denorm_numQ (hrun : s.halted = false) (hnum : s.cfg.num = .exactRational ties) {n0 n1 n2 : Rat}
    (h : ∀ x ∈ [n0, n1, n2], -1 < x * den ∧ x * den < 2 ^ s.cfg.widths.cw) :
    exec (.denorm n0 n1 n2 den) s = .next (completed s
      { px0 := some ⟨⌊n0 * den⌋.toNat, ⌊n1 * den⌋.toNat, ⌊n2 * den⌋.toNat⟩ }) := by
  have hlane : ∀ x ∈ [n0, n1, n2], denormLane (numQ ties) s.cfg.widths.cw x den = .ok ⌊x * den⌋.toNat :=
    fun x hx => denormLane_numQ (h x hx).1 (h x hx).2
  have hpixel := denormalize_ok (t := ⟨n0, n1, n2⟩) (hlane n0 (by simp)) (hlane n1 (by simp)) (hlane n2 (by simp))
  exact exec_of_ok hrun (by rw [resultOf, numOf_exact ties hnum, hpixel]; rfl)

/-- Settles O34: a lane `c / den` has the product `c`, which is its own floor and lies on the port when the pixel fits. -/
theorem denormTruncatesAndUndoesNorm : Obligations.DenormTruncatesAndUndoesNorm := by
  refine fun s ties hrun hnum => ⟨fun n0 n1 n2 den h => exec_denorm_numQ hrun hnum h, fun p den hfits hden => ?_⟩
  have hproduct : ∀ c : Nat, (c : Rat) / den * den = c := fun c => div_mul_cancel₀ _ (by exact_mod_cast hden)
  have hport : ∀ c : Nat, c < 2 ^ s.cfg.widths.cw → (-1 : Rat) < c ∧ (c : Rat) < 2 ^ s.cfg.widths.cw :=
    fun c hc => ⟨neg_one_lt_zero.trans_le c.cast_nonneg, by exact_mod_cast hc⟩
  obtain ⟨hr, hg, hb⟩ := fits_iff.1 hfits
  rw [exec_denorm_numQ hrun hnum (by simp [hproduct, hport _ hr, hport _ hg, hport _ hb])]
  simp [hproduct]

end Sys2Proof.Machine
end

section
/-! The BlockTransform commands (R150 to R153): under `NUM_Q` the two transforms are the document's rational matrices, and these
are inverse to each other. -/

namespace Sys2Proof.Machine

variable {ties : RoundTies}

theorem forwardTransform_numQ (y0 y1 y2 y3 : Rat) : forwardTransform (numQ ties) ⟨y0, y1, y2, y3⟩ =
    ⟨(y0 + y1 + y2 + y3) / 4, (y3 + y2 - y1 - y0) / 4, (y3 - y2 + y1 - y0) / 4, (y3 - y2 - y1 + y0) / 4⟩ := rfl

theorem inverseTransform_numQ (a b c d : Rat) : inverseTransform (numQ ties) ⟨a, b, c, d⟩ =
    ⟨a - b - c + d, a - b + c - d, a + b - c - d, a + b + c + d⟩ := rfl

/-- Settles O37: lane by lane, four signed sums return one operand four times over, and the forward transform's 1/4 cancels
the four. -/
theorem blockTransformsAreInverses : Obligations.BlockTransformsAreInverses := by
  rintro ties ⟨k0, k1, k2, k3⟩
  constructor
  · rw [forwardTransform_numQ, inverseTransform_numQ, Quad.mk.injEq]
    exact ⟨by ring, by ring, by ring, by ring⟩
  · rw [inverseTransform_numQ, forwardTransform_numQ, Quad.mk.injEq]
    exact ⟨by ring, by ring, by ring, by ring⟩

/-- Settles O35: the command answers its transform, which under `NUM_Q` is the document's matrix. -/
theorem btfwdCompletes : Obligations.BtfwdCompletes := by
  refine ⟨fun pw p hop => by simp only [decode, hop]; rfl, fun s y0 y1 y2 y3 hrun => ⟨?_, fun ties hnum => ?_⟩⟩
  · rintro N rfl
    exact exec_of_ok hrun rfl
  · exact exec_of_ok hrun (by rw [resultOf, numOf_exact ties hnum, forwardTransform_numQ]; rfl)

/-- Settles O36: the command answers its transform, which under `NUM_Q` is the document's matrix. -/
theorem btinvCompletes : Obligations.BtinvCompletes := by
  refine ⟨fun pw p hop => by simp only [decode, hop]; rfl, fun s a b c d hrun => ⟨?_, fun ties hnum => ?_⟩⟩
  · rintro N rfl
    exact exec_of_ok hrun rfl
  · exact exec_of_ok hrun (by rw [resultOf, numOf_exact ties hnum, inverseTransform_numQ]; rfl)

end Sys2Proof.Machine
end

section
/-! The Quantizer commands (R160 to R167): under `NUM_Q` a quantizer is a rounded product, which `QDET` limits to −15..15; from
these two forms follow the bounds, the order and the round trips, and with them `BLKENC` in normal operation. -/

namespace Sys2Proof.Machine

variable {s : State} {N : NumOps} {ties : RoundTies} {a x : F} {z : Int}

/-! ### QAVG (R161) -/

theorem quantizeAverage_ok (h : N.fround (N.mul a (N.fint 63)) = some z) (hlo : -(2 ^ 63) ≤ z) (hhi : z ≤ 2 ^ 63 - 1) :
    quantizeAverage N a = .ok (BitVec.ofInt 64 z) := by
  rw [quantizeAverage, h, onPort_some hlo hhi]
  rfl

theorem quantizeAverage_fault
    (h : ∀ z, N.fround (N.mul a (N.fint 63)) = some z → z < -(2 ^ 63) ∨ 2 ^ 63 - 1 < z) :
    quantizeAverage N a = raiseDomainFault := by
  obtain ⟨z, hz, hlo, hhi, -⟩ | ⟨-, e⟩ := quantizeAverage_cases N a
  · have := h z hz
    omega
  · exact e

theorem exec_qavg_ok {v : Word} (hrun : s.halted = false) (h : quantizeAverage (numOf s.cfg) a = .ok v) :
    exec (.qavg a) s = .next (completed s { value := some v }) :=
  exec_of_ok hrun (by rw [resultOf, h]; rfl)

/-- Settles O38: the range of the rounded product alone decides between the pattern and the fault. -/
theorem qavgCompletes : Obligations.QavgCompletes := by
  refine ⟨fun pw p hop => by simp only [decode, hop]; rfl, ?_⟩
  rintro s a N hrun rfl
  refine ⟨fun z hz hlo hhi => ?_, fun hoff => ?_⟩
  · exact ⟨_, exec_qavg_ok hrun (quantizeAverage_ok hz hlo hhi), toInt_ofInt64 hlo hhi⟩
  · exact exec_of_fatal hrun (by rw [resultOf, quantizeAverage_fault hoff]; rfl)

/-- Up to 2^56 the rounded product fits in 64 bits, since 63 is less than 2^6. -/
theorem froundQ_mul63_range {a : Rat} (h : |a| ≤ 2 ^ 56) :
    -(2 ^ 63) ≤ froundQ ties (a * 63) ∧ froundQ ties (a * 63) ≤ 2 ^ 63 - 1 := by
  obtain ⟨hlo, hhi⟩ := abs_le.1 h
  have h1 : -(63 * 2 ^ 56) ≤ froundQ ties (a * 63) := le_froundQ _ _ (by push_cast; linarith)
  have h2 : froundQ ties (a * 63) ≤ 63 * 2 ^ 56 := froundQ_le _ _ (by push_cast; linarith)
  omega

/-- `QAVG` of `DQAVG q` rounds `q` itself. -/
theorem quantizeAverage_dequantizeAverage {q : Nat} (hq : q ≤ 63) :
    quantizeAverage (numQ ties) (dequantizeAverage (numQ ties) q) = .ok (BitVec.ofNat 64 q) := by
  have hround : froundQ ties (dequantizeAverage (numQ ties) q * 63) = q := by
    have hproduct : dequantizeAverage (numQ ties) q * 63 = ((q : Int) : Rat) := by
      simp only [dequantizeAverage, numQ_div, numQ_fint]
      norm_num
    rw [hproduct, froundQ_intCast]
  rw [quantizeAverage_numQ ties (by omega) (by omega), hround, BitVec.ofInt_natCast]

/-- Settles O39: up to 2^56 `QAVG` is `fround`, so the distance, the tie rule and the bounds are those of `fround`. -/
theorem qavgRoundsToNearest : Obligations.QavgRoundsToNearest := by
  refine fun s ties hrun hnum => ⟨fun a ha => ?_, fun q hq => ?_⟩
  · obtain ⟨hlo, hhi⟩ := froundQ_mul63_range (ties := ties) ha
    refine ⟨_, exec_qavg_ok hrun (by rw [numOf_exact ties hnum, quantizeAverage_numQ ties hlo hhi]), ?_⟩
    rw [toInt_ofInt64 hlo hhi]
    refine ⟨froundQ_close _ _, ?_, fun h0 h1 => ⟨?_, ?_⟩⟩
    · rintro rfl htie
      exact froundQ_tie_away _ htie
    · exact le_froundQ _ _ (by push_cast; linarith)
    · exact froundQ_le _ _ (by push_cast; linarith)
  · exact exec_qavg_ok hrun (by rw [numOf_exact ties hnum, quantizeAverage_dequantizeAverage hq])

/-! ### QDET (R163) -/

theorem quantizeDetail_low (h : N.le x (N.flit ⟨-3, 1⟩) = true) :
    quantizeDetail N x = .ok 0xFFFFFFFFFFFFFFF1 := by
  rw [quantizeDetail, if_pos h]
  rfl

theorem quantizeDetail_high (hlow : N.le x (N.flit ⟨-3, 1⟩) = false) (h : N.ge x (N.flit ⟨3, 1⟩) = true) :
    quantizeDetail N x = .ok 15 := by
  rw [quantizeDetail, if_neg (by simp [hlow]), if_pos h]
  rfl

section Inside

variable (hlow : N.le x (N.flit ⟨-3, 1⟩) = false) (hhigh : N.ge x (N.flit ⟨3, 1⟩) = false)

include hlow hhigh

theorem quantizeDetail_rounded (h : N.fround (N.mul x (N.fint 50)) = some z) :
    quantizeDetail N x = .ok (BitVec.ofInt 64 z) := by
  rw [quantizeDetail, if_neg (by simp [hlow]), if_neg (by simp [hhigh]), h]

theorem quantizeDetail_fault (h : N.fround (N.mul x (N.fint 50)) = none) : quantizeDetail N x = raiseDomainFault := by
  rw [quantizeDetail, if_neg (by simp [hlow]), if_neg (by simp [hhigh]), h]

end Inside

theorem exec_qdet_ok {v : Word} (hrun : s.halted = false) (h : quantizeDetail (numOf s.cfg) x = .ok v) :
    exec (.qdet x) s = .next (completed s { value := some v }) :=
  exec_of_ok hrun (by rw [resultOf, h]; rfl)

/-- Settles O41: the two saturation tests in their order, then the rounded product or the fault. -/
theorem qdetCompletes : Obligations.QdetCompletes := by
  refine ⟨fun pw p hop => by simp only [decode, hop]; rfl, ?_⟩
  rintro s x N hrun rfl
  refine ⟨fun h => ?_, fun hlow h => ?_, fun hlow hhigh => ?_⟩
  · exact exec_qdet_ok hrun (quantizeDetail_low h)
  · exact exec_qdet_ok hrun (quantizeDetail_high hlow h)
  · split
    next z hz => exact exec_qdet_ok hrun (quantizeDetail_rounded hlow hhigh hz)
    next hnone => exact exec_of_fatal hrun (by rw [resultOf, quantizeDetail_fault hlow hhigh hnone]; rfl)

/-- Between the saturation bounds, themselves included, the rounded product is in range. -/
theorem froundQ_mul50_range {x : Rat} (h : |x| ≤ 3 / 10) :
    -15 ≤ froundQ ties (x * 50) ∧ froundQ ties (x * 50) ≤ 15 := by
  obtain ⟨hlo, hhi⟩ := abs_le.1 h
  exact ⟨le_froundQ _ _ (by push_cast; linarith), froundQ_le _ _ (by push_cast; linarith)⟩

/-- Under `NUM_Q` the saturation tests do what limiting the rounded product would, since 50 × 0.3 is the integer 15. -/
theorem detailQ_eq_limit (x : Rat) : detailQ ties x = max (-15) (min 15 (froundQ ties (x * 50))) := by
  unfold detailQ
  split
  next h =>
    have : froundQ ties (x * 50) ≤ -15 := froundQ_le _ _ (by push_cast; linarith)
    omega
  next hlow =>
    split
    next h =>
      have : 15 ≤ froundQ ties (x * 50) := le_froundQ _ _ (by push_cast; linarith)
      omega
    next hhigh =>
      have := froundQ_mul50_range (ties := ties) (abs_le.2 ⟨by linarith, by linarith⟩ : |x| ≤ 3 / 10)
      omega

/-- `QDET` keeps the order, across the saturation bounds and the ties (R163). -/
theorem detailQ_mono {x y : Rat} (h : x ≤ y) : detailQ ties x ≤ detailQ ties y := by
  have hround : froundQ ties (x * 50) ≤ froundQ ties (y * 50) := froundQ_mono _ (by linarith)
  rw [detailQ_eq_limit, detailQ_eq_limit]
  exact max_le_max_left _ (min_le_min_left _ hround)

/-- Between the saturation bounds `QDET` only rounds (R163). -/
theorem detailQ_of_abs_le {x : Rat} (h : |x| ≤ 3 / 10) : detailQ ties x = froundQ ties (x * 50) := by
  obtain ⟨hlo, hhi⟩ := froundQ_mul50_range (ties := ties) h
  rw [detailQ_eq_limit, min_eq_right hhi, max_eq_right hlo]

theorem toInt_ofInt_detailQ (x : Rat) : (BitVec.ofInt 64 (detailQ ties x)).toInt = detailQ ties x := by
  obtain ⟨hlo, hhi⟩ := detailQ_range ties x
  exact toInt_ofInt64 (by omega) (by omega)

theorem exec_qdet_numQ (hrun : s.halted = false) (hnum : s.cfg.num = .exactRational ties) (x : Rat) :
    exec (.qdet x) s = .next (completed s { value := some (BitVec.ofInt 64 (detailQ ties x)) }) :=
  exec_qdet_ok hrun (by rw [numOf_exact ties hnum, quantizeDetail_numQ])

/-- Settles O42, with one function for all inputs: the rounded product, limited to −15..15. -/
theorem qdetSaturatesAndIsMonotone : Obligations.QdetSaturatesAndIsMonotone := by
  refine fun s ties hrun hnum => ⟨fun x => BitVec.ofInt 64 (detailQ ties x), exec_qdet_numQ hrun hnum, ?_⟩
  simp only [toInt_ofInt_detailQ]
  refine ⟨detailQ_range ties, fun x y => detailQ_mono, fun x hx => ?_⟩
  rw [detailQ_of_abs_le hx]
  exact froundQ_close _ _

theorem detailQ_dequantizeDetail (q : Int) : detailQ ties (dequantizeDetail (numQ ties) q) = max (-15) (min 15 q) := by
  have hproduct : dequantizeDetail (numQ ties) q * 50 = (q : Rat) := by
    simp only [dequantizeDetail, numQ_div, numQ_fint]
    norm_num
  rw [detailQ_eq_limit, hproduct, froundQ_intCast]

/-- Settles O44: the product that `QDET` rounds and limits is `q` itself. -/
theorem qdetUndoesDqdet : Obligations.QdetUndoesDqdet := fun s ties q hrun hnum => by
  rw [exec_qdet_numQ hrun hnum, numOf_exact ties hnum, detailQ_dequantizeDetail]

/-! ### DQAVG, DQDET, CIDX and CVAL (R162, R164 to R166) -/

/-- Settles O40: the command answers its quotient, which under `NUM_Q` is exact. -/
theorem dqavgCompletes : Obligations.DqavgCompletes := by
  refine ⟨fun pw p hop => by simp only [decode, hop]; rfl, fun s q hrun => ⟨?_, fun ties hnum => ?_⟩⟩
  · rintro N rfl
    exact exec_of_ok hrun rfl
  · exact exec_of_ok hrun (by simp [resultOf, numOf_exact ties hnum, dequantizeAverage])

/-- Settles O43: the command answers its quotient, which under `NUM_Q` is exact. -/
theorem dqdetCompletes : Obligations.DqdetCompletes := by
  refine ⟨fun pw p hop => by simp only [decode, hop]; rfl, fun s q hrun => ⟨?_, fun ties hnum => ?_⟩⟩
  · rintro N rfl
    exact exec_of_ok hrun rfl
  · exact exec_of_ok hrun (by simp [resultOf, numOf_exact ties hnum, dequantizeDetail])

/-- Settles O45: each command's result is the configured table's answer to its operand, whatever that table is. -/
theorem chromaTableCompletes : Obligations.ChromaTableCompletes :=
  ⟨fun pw p hop => by simp only [decode, hop]; rfl, fun pw p hop => by simp only [decode, hop]; rfl,
    fun _ hrun => ⟨fun _ => exec_of_ok hrun rfl, fun _ => exec_of_ok hrun rfl⟩⟩

/-! ### BLKENC in normal operation (R167, R232) -/

/-- An index extended to 64 bits keeps its range. -/
theorem toNat_index_le (i : BitVec 4) : (i.setWidth 64).toNat ≤ 15 := by
  have := (fitsU_iff _ _).1 (index_fits i)
  omega

/-- Settles O47: normal pixels give six fields that fit their places, so they pack, and unpacking reads them back. -/
theorem blkencNeverFailsInNormalOperation : Obligations.BlkencNeverFailsInNormalOperation := by
  intro s ties p0 p1 p2 p3 den hrun hnum hden h0 h1 h2 h3
  obtain ⟨a, b, c, d, i, j, hfields, ha, hdet⟩ :=
    encodeFields_normal (ties := ties) (C := chromaOfConfig s.cfg) hden h0 h1 h2 h3
  rw [← numOf_exact ties hnum] at hfields
  have fa : fitsU a 6 = true := (fitsU_iff a 6).2 (by omega)
  have fb : fitsS b 6 = true := fitsS_detail (hdet b (by simp))
  have fc : fitsS c 6 = true := fitsS_detail (hdet c (by simp))
  have fd : fitsS d 6 = true := fitsS_detail (hdet d (by simp))
  exact ⟨_, _, hfields, exec_of_ok hrun (by rw [resultOf, encodeBlock_fits hfields fa fb fc fd]; rfl),
    unpack6_packed fa fb fc fd, ha, hdet, toNat_index_le i, toNat_index_le j⟩

end Sys2Proof.Machine
end

section
/-! The answer of `BLKENC` (R181, R183): a completed encode made its six fields and packed them, so unpacking its word reads them
back; a gray block has no detail and no chroma. -/

namespace Sys2Proof.Machine

variable {s : State} {N : NumOps} {C : Chroma} {p0 p1 p2 p3 : Pixel} {den : Nat} {packed : BitVec 32} {ties : RoundTies}

/-! ### Unpacking what BLKENC answered (R183) -/

/-- Only a command that computed its ports completes a running block with them (R76, R205). -/
theorem resultOf_of_exec_completed {i : Instr} {ports : Results} (hrun : s.halted = false)
    (h : exec i s = .next (completed s ports)) : resultOf s.cfg i = .ok ports := by
  rw [exec_eq] at h
  have hfin : finish s (resultOf s.cfg i) = completed s ports := Host.Outcome.next.inj h
  have hresp := congrArg State.responses hfin
  obtain ⟨hhalt, -⟩ | ⟨-, ⟨ports', hres, e⟩ | ⟨-, e⟩ | ⟨k, -, e⟩⟩ := finish_cases s (resultOf s.cfg i)
  · simp [hrun] at hhalt
  · rw [hres]
    simpa [e, completed] using hresp
  · simp [e, completed] at hresp
  · simp [e, completed, fatalStatus_ne_ok] at hresp

/-- A packed answer comes from six fields and the six sets (R181, R201). -/
theorem encodeBlock_eq_ok (h : encodeBlock N C p0 p1 p2 p3 den = .ok packed) :
    ∃ f W, encodeFields N C p0 p1 p2 p3 den = .ok f ∧ pack6 f = .ok W ∧ W.setWidth 32 = packed := by
  rw [encodeBlock] at h
  cases hf : encodeFields N C p0 p1 p2 p3 den with
  | error e => simp [hf, bind, Except.bind] at h
  | ok f =>
    obtain ⟨-, -, -, -, -, -, W, hW⟩ | ⟨-, hover⟩ := pack6_cases f
    · refine ⟨f, W, rfl, hW, ?_⟩
      simpa [hf, hW, bind, Except.bind, pure, Except.pure] using h
    · simp [hf, hover, raiseOverflow, bind, Except.bind] at h

/-- Fields that packed are read back: packing answers only when each fits its place (R83). -/
theorem unpack6_of_pack6 {f : PackedFields} {W : Word} (h : pack6 f = .ok W) :
    unpack6 ((W.setWidth 32).setWidth 64) = .ok f := by
  obtain ⟨fa, fb, fc, fd, fpb, fpr, -⟩ | ⟨-, hover⟩ := pack6_cases f
  · exact unpack6_pack6 fa fb fc fd fpb fpr W h
  · simp [hover, raiseOverflow] at h

/-- Settles O48: a completed encode packed the fields it made, and those are what unpacking reads. -/
theorem unpackReturnsTheEncodedFields : Obligations.UnpackReturnsTheEncodedFields := by
  intro s p0 p1 p2 p3 den packed hrun hexec
  have hres := resultOf_of_exec_completed hrun hexec
  rw [resultOf] at hres
  have henc : encodeBlock (numOf s.cfg) (chromaOfConfig s.cfg) p0 p1 p2 p3 den = .ok packed := by
    cases e : encodeBlock (numOf s.cfg) (chromaOfConfig s.cfg) p0 p1 p2 p3 den with
    | error _ => simp [e, Except.map] at hres
    | ok _ => simpa [e, Except.map] using hres
  obtain ⟨f, W, hf, hW, rfl⟩ := encodeBlock_eq_ok henc
  exact ⟨f, hf, unpack6_of_pack6 hW⟩

/-! ### A gray block (R132, R151, R181) -/

/-- The luma weights sum to 1 and each chroma row's to 0, so a gray is its own luma without chroma (R132). -/
theorem toLumaChroma_gray (v : Rat) : toLumaChroma (numQ ties) ⟨v, v, v⟩ = ⟨v, 0, 0⟩ := by
  rw [toLumaChroma_numQ, Triple.mk.injEq]
  refine ⟨?_, ?_, ?_⟩ <;> ring

/-- Four equal lumas have their own value as mean and no detail (R151). -/
theorem forwardTransform_const (v : Rat) : forwardTransform (numQ ties) ⟨v, v, v, v⟩ = ⟨v, 0, 0, 0⟩ := by
  rw [forwardTransform_numQ, Quad.mk.injEq]
  refine ⟨?_, ?_, ?_, ?_⟩ <;> ring

theorem averageChroma_zero : averageChroma (numQ ties) 0 0 0 0 = 0 := by simp [averageChroma]

theorem quantizeDetail_zero : quantizeDetail (numQ ties) 0 = .ok 0 := by
  rw [quantizeDetail_numQ, detailQ_of_abs_le (by norm_num), zero_mul, ← Int.cast_zero, froundQ_intCast]
  rfl

/-- The rounded average of a gray in [0,1] is in the range of its field (R161, R167). -/
theorem froundQ_mul63_unit {v : Rat} (h : 0 ≤ v ∧ v ≤ 1) : 0 ≤ froundQ ties (v * 63) ∧ froundQ ties (v * 63) ≤ 63 :=
  ⟨le_froundQ _ _ (by push_cast; linarith), froundQ_le _ _ (by push_cast; linarith)⟩

/-- The low bits of an integer's pattern are its pattern at the smaller width. -/
theorem setWidth_ofInt {v w : Nat} (h : w ≤ v) (z : Int) : (BitVec.ofInt v z).setWidth w = BitVec.ofInt w z := by
  have hdvd : ((2 ^ w : Nat) : Int) ∣ (2 ^ v : Nat) := by exact_mod_cast pow_dvd_pow 2 h
  apply BitVec.eq_of_toNat_eq
  rw [BitVec.toNat_setWidth, BitVec.toNat_ofInt, BitVec.toNat_ofInt, ← Int.emod_emod_of_dvd z hdvd,
    Int.toNat_emod (Int.emod_nonneg _ (by positivity)) (by positivity), Int.toNat_natCast]

/-- Three details of 0 are 18 zero bits (R80). -/
theorem packed_noDetail (a : BitVec 6) (i j : BitVec 4) :
    (a ++ (0 : BitVec 6) ++ (0 : BitVec 6) ++ (0 : BitVec 6) ++ i ++ j : BitVec 32) = a ++ (0 : BitVec 18) ++ i ++ j := by
  have hzero : a ++ (0 : BitVec 6) ++ (0 : BitVec 6) ++ (0 : BitVec 6) = a ++ (0 : BitVec 18) := by
    rw [BitVec.append_assoc, BitVec.append_assoc]
    rfl
  rw [hzero]

/-- Four equal lumas in [0,1] without chroma quantize to their rounded average and no detail (R161, R163, R181). -/
theorem quantizeBlock_gray {v : Rat} (h : 0 ≤ v ∧ v ≤ 1) :
    quantizeBlock (numQ ties) C ⟨v, 0, 0⟩ ⟨v, 0, 0⟩ ⟨v, 0, 0⟩ ⟨v, 0, 0⟩ =
      .ok ⟨BitVec.ofInt 64 (froundQ ties (v * 63)), 0, 0, 0, (C.indexOf 0).setWidth 64, (C.indexOf 0).setWidth 64⟩ := by
  obtain ⟨hlo, hhi⟩ := froundQ_mul63_unit (ties := ties) h
  have haverage := quantizeAverage_numQ ties (a := v) (by omega) (by omega)
  rw [quantizeBlock_ok (forwardTransform_const v).symm haverage quantizeDetail_zero quantizeDetail_zero
    quantizeDetail_zero, averageChroma_zero]

theorem encodeFields_gray (g : Nat) (hden : den ≠ 0) :
    encodeFields (numQ ties) C ⟨g, g, g⟩ ⟨g, g, g⟩ ⟨g, g, g⟩ ⟨g, g, g⟩ den =
      quantizeBlock (numQ ties) C ⟨(g : Rat) / den, 0, 0⟩ ⟨(g : Rat) / den, 0, 0⟩ ⟨(g : Rat) / den, 0, 0⟩
        ⟨(g : Rat) / den, 0, 0⟩ := by
  rw [encodeFields_eq hden fun p => rfl]
  simp only [numQ_div, numQ_fint, Int.cast_natCast, toLumaChroma_gray]

/-- Settles O49: a gray block has only its average, which fits, and the table's index of 0 for both chroma averages. -/
theorem blkencOfAGrayBlock : Obligations.BlkencOfAGrayBlock := by
  intro s ties g den hrun hnum hden hg
  have hunit := normalized_unit hden hg
  obtain ⟨hlo, hhi⟩ := froundQ_mul63_unit (ties := ties) hunit
  have hfields := (encodeFields_gray (ties := ties) (C := chromaOfConfig s.cfg) g hden).trans (quantizeBlock_gray hunit)
  have hfit : fitsU (BitVec.ofInt 64 (froundQ ties ((g : Rat) / den * 63))) 6 = true := by
    rw [fitsU_iff, BitVec.toNat_ofInt]
    omega
  have hzero : fitsS 0 6 = true := fitsS_detail (by decide)
  refine exec_of_ok hrun ?_
  rw [resultOf, numOf_exact ties hnum, encodeBlock_fits hfields hfit hzero hzero hzero, setWidth_ofInt (by norm_num),
    ← packed_noDetail]
  rfl

end Sys2Proof.Machine
end

section
/-! The halt latch and the fault kinds (R200 to R202, R205 to R210, R231): a fault is told by what the command computed, and
`resultOf_cases` says what each command can compute. -/

namespace Sys2Proof.Machine

variable {s : State} {i : Instr}

/-! ### While halted (R209, R210) -/

/-- Settles O3: waiting keeps the latch, and so does the refusal that a command gets while halted. -/
theorem onlyResetLeavesHalted : Obligations.OnlyResetLeavesHalted := fun s t hstep hhalt hrun => by
  obtain ⟨-, e⟩ | ⟨p, rest, -, e⟩ | ⟨abandoned, rest, hin, -⟩ := step_cases s
  · cases e.symm.trans hstep
    simp [hhalt] at hrun
  · cases e.symm.trans hstep
    rw [finish_halted (s := { s with inputs := rest }) hhalt] at hrun
    simp [hhalt] at hrun
  · exact ⟨abandoned, rest, hin⟩

/-- Settles O12: the Halted test comes before anything the command computes (R205). -/
theorem haltedRefusesEveryCommand : Obligations.HaltedRefusesEveryCommand := fun s hhalt => by
  refine ⟨fun p rest h => ?_, fun i => ?_⟩
  · rw [step_command h, finish_halted (s := { s with inputs := rest }) hhalt]
    rfl
  · rw [exec_eq, finish_halted hhalt]
    rfl

/-! ### Which fault a running block reports (R200 to R202) -/

/-- The status that reports what a command computed (R76, R206, R207). -/
def resultStatus : Result Results → Status
  | .ok _ => .ok
  | .error .overflow => .overflow
  | .error (.fatal k) => fatalStatus k

/-- A running block reports what the command computed, and halts exactly on a fatal fault (R206, R207). -/
theorem finish_report (hrun : s.halted = false) (res : Result Results) :
    (∃ ports, (finish s res).responses = s.responses ++ [⟨resultStatus res, ports⟩]) ∧
    ((finish s res).halted = true ↔ ∃ k, res = .error (.fatal k)) := by
  obtain ⟨hhalt, -⟩ | ⟨-, ⟨ports, rfl, e⟩ | ⟨rfl, e⟩ | ⟨k, rfl, e⟩⟩ := finish_cases s res
  · simp [hrun] at hhalt
  · exact ⟨⟨ports, by rw [e]; rfl⟩, by simp [e, hrun]⟩
  · exact ⟨⟨{}, by rw [e]; rfl⟩, by simp [e, hrun]⟩
  · exact ⟨⟨{}, by rw [e]; rfl⟩, by simp [e]⟩

/-- Settles O16, by the five things a command can compute. -/
theorem faultsComeOnlyFromTheirCommands : Obligations.FaultsComeOnlyFromTheirCommands := fun s t i r hrun hexec hr => by
  rw [exec_eq] at hexec
  cases hexec
  obtain ⟨⟨ports, hports⟩, hhalt⟩ := finish_report hrun (resultOf s.cfg i)
  obtain rfl : _ = r := List.singleton_injective (List.append_cancel_left (hports.symm.trans hr))
  rw [hhalt]
  obtain ⟨ports', e, -⟩ | ⟨e, hop⟩ | ⟨e, hop⟩ | ⟨e, hop, -⟩ | ⟨e, hop⟩ := resultOf_cases s.cfg i <;> rw [e]
  · simp [resultStatus]
  · have hset : i.op = 0x05#5 ∨ i.op = 0x06#5 := by simpa using hop
    obtain hop | hop := hset <;> simp [resultStatus, hop]
  · simp [resultStatus, fatalStatus, hop]
  · simpa [resultStatus, fatalStatus] using hop
  · simpa [resultStatus, fatalStatus] using hop

theorem fatalCause_injective : Function.Injective fatalCause := fun k k' h => by
  cases k <;> cases k' <;> cases h <;> rfl

/-- A running block enters a fatal fault exactly when the command computed that fault. -/
theorem exec_eq_faulted_iff (hrun : s.halted = false) (k : FatalKind) :
    exec i s = .next (faulted s k) ↔ resultOf s.cfg i = .error (.fatal k) := by
  refine ⟨fun h => ?_, exec_of_fatal hrun⟩
  rw [exec_eq] at h
  have hfin : finish s (resultOf s.cfg i) = faulted s k := Host.Outcome.next.inj h
  obtain ⟨k', hk'⟩ := (finish_report hrun (resultOf s.cfg i)).2.1 (by rw [hfin]; rfl)
  have hcause := congrArg State.cause hfin
  rw [hk', finish_fatal hrun] at hcause
  rw [hk', fatalCause_injective hcause]

/-- Settles O17: the descriptor check is the only source of the fault, and the first thing the four commands do (R101). -/
theorem contractViolationExactlyOnMalformedDescriptor : Obligations.ContractViolationExactlyOnMalformedDescriptor := by
  refine fun s i hrun => ⟨fun h => ?_, fun h => ?_⟩
  · have hres := (exec_eq_faulted_iff hrun _).1 h
    obtain ⟨ports, e, -⟩ | ⟨e, -⟩ | ⟨e, -⟩ | ⟨e, -, hdesc⟩ | ⟨e, -⟩ := resultOf_cases s.cfg i <;> rw [e] at hres <;>
      cases hres
    exact hdesc
  · have hlong : ∀ {w l : Nat}, 64 < w ∨ 64 < w + l → 64 < w + l := by omega
    cases i with
    | getu W w l => exact exec_of_fatal hrun (by rw [resultOf, getU_malformed (hlong h)]; rfl)
    | gets W w l => exact exec_of_fatal hrun (by rw [resultOf, getS_malformed (hlong h)]; rfl)
    | setu W w l v => exact exec_setCommand_malformed (k := false) hrun (hlong h)
    | sets W w l v => exact exec_setCommand_malformed (k := true) hrun (hlong h)
    | _ => exact h.elim

end Sys2Proof.Machine
end

section
/-! DomainFault under `NUM_Q` (R131, R135, R161, R181, R204): every number has its integer image, so only a zero denominator and a
product outside its port are left to raise it. -/

namespace Sys2Proof.Machine

variable {c : Config} {i : Instr} {N : NumOps} {C : Chroma} {ties : RoundTies} {p0 p1 p2 p3 : Pixel}
  {den cw : Nat}

/-! ### One command at a time -/

/-- Putting an answer on its ports neither makes nor hides a fault. -/
theorem map_eq_domainFault_iff {α : Type} {r : Result α} {f : α → Results} :
    r.map f = .error (.fatal .domainFault) ↔ r = raiseDomainFault := by
  cases r <;> simp [Except.map, raiseDomainFault]

theorem normalizePixel_fault_iff {p : Pixel} : normalizePixel N p den = raiseDomainFault ↔ den = 0 := by
  refine ⟨fun h => ?_, fun h => by rw [h, normalizePixel_zero]⟩
  by_contra hden
  rw [normalizePixel_nonzero N p hden] at h
  cases h

/-- Under `NUM_Q` an average faults exactly when its rounded product leaves the 64-bit range (R161). -/
theorem quantizeAverage_numQ_fault_iff {a : Rat} : quantizeAverage (numQ ties) a = raiseDomainFault ↔
    froundQ ties (a * 63) < -(2 ^ 63) ∨ 2 ^ 63 ≤ froundQ ties (a * 63) := by
  refine ⟨fun h => ?_, fun h => quantizeAverage_fault fun z hz => ?_⟩
  · by_contra hin
    rw [quantizeAverage_numQ ties (by omega) (by omega)] at h
    cases h
  · obtain rfl : froundQ ties (a * 63) = z := by simpa using hz
    omega

/-- Under `NUM_Q` a lane whose product truncates off the port is a DomainFault (R135). -/
theorem denormLane_numQ_fault {x : Rat} (h : x * den ≤ -1 ∨ 2 ^ cw ≤ x * den) :
    denormLane (numQ ties) cw x den = raiseDomainFault := by
  refine denormLane_fault fun z hz => ?_
  obtain rfl : ftruncQ (x * den) = z := by simpa using hz
  obtain hlo | hhi := h
  · have hfloor : 1 ≤ ⌊-(x * den)⌋ := Int.le_floor.2 (by push_cast; linarith)
    rw [ftruncQ_of_neg _ (by linarith)]
    omega
  · have hfloor : (2 : Int) ^ cw ≤ ⌊x * den⌋ := Int.le_floor.2 (by exact_mod_cast hhi)
    rw [ftruncQ_of_nonneg _ ((by positivity : (0 : Rat) ≤ 2 ^ cw).trans hhi)]
    omega

/-- Under `NUM_Q` a pixel faults exactly when a lane's product is at most −1 or does not fit the port (R135). -/
theorem denormalize_numQ_fault_iff {n0 n1 n2 : Rat} :
    denormalize (numQ ties) cw ⟨n0, n1, n2⟩ den = raiseDomainFault ↔
      ∃ x ∈ [n0, n1, n2], x * (den : Rat) ≤ -1 ∨ 2 ^ cw ≤ x * (den : Rat) := by
  refine ⟨fun h => ?_, fun ⟨x, hx, hoff⟩ => denormalize_fault ⟨x, hx, denormLane_numQ_fault hoff⟩⟩
  obtain ⟨r, g, b, -, -, -, e⟩ | ⟨⟨x, hx, hlane⟩, -⟩ := denormalize_cases (numQ ties) cw ⟨n0, n1, n2⟩ den
  · rw [e] at h
    cases h
  · refine ⟨x, hx, ?_⟩
    by_contra hin
    rw [not_or, not_le, not_le] at hin
    rw [denormLane_numQ hin.1 hin.2] at hlane
    cases hlane

/-! ### BLKENC (R181, R204) -/

/-- The six sets raise no DomainFault, so that of `BLKENC` comes from the making of the fields. -/
theorem encodeBlock_fault_iff : encodeBlock N C p0 p1 p2 p3 den = raiseDomainFault ↔
    encodeFields N C p0 p1 p2 p3 den = raiseDomainFault := by
  refine ⟨fun h => ?_, encodeBlock_noFields⟩
  rw [encodeBlock] at h
  cases hf : encodeFields N C p0 p1 p2 p3 den with
  | error e => simpa [hf, raiseDomainFault, bind, Except.bind] using h
  | ok f =>
    obtain ⟨-, -, -, -, -, -, W, hW⟩ | ⟨-, hover⟩ := pack6_cases f
    · simp [hf, hW, raiseDomainFault, bind, Except.bind, pure, Except.pure] at h
    · simp [hf, hover, raiseDomainFault, raiseOverflow, bind, Except.bind] at h

/-- Under `NUM_Q` a detail always quantizes, so only the average can fault. -/
theorem quantizeBlock_numQ_fault_iff {t0 t1 t2 t3 : Triple} :
    quantizeBlock (numQ ties) C t0 t1 t2 t3 = raiseDomainFault ↔
      quantizeAverage (numQ ties) ((t0.x0 + t1.x0 + t2.x0 + t3.x0) / 4) = raiseDomainFault := by
  refine ⟨fun h => ?_, fun h => quantizeBlock_fault (forwardTransform_numQ _ _ _ _).symm (.inl h)⟩
  obtain ⟨v, hv⟩ | e := quantizeAverage_answers (numQ ties) ((t0.x0 + t1.x0 + t2.x0 + t3.x0) / 4)
  · rw [quantizeBlock_ok (forwardTransform_numQ _ _ _ _).symm hv (quantizeDetail_numQ _ _) (quantizeDetail_numQ _ _)
      (quantizeDetail_numQ _ _)] at h
    cases h
  · exact e

/-- The mean of the four lumas, which `BLKENC` quantizes as its average under `NUM_Q` (R151, R181). -/
def meanLuma (p0 p1 p2 p3 : Pixel) (den : Nat) : Rat :=
  (exactLuma p0 + exactLuma p1 + exactLuma p2 + exactLuma p3) / (4 * den)

theorem exactLuma_nonneg (p : Pixel) : 0 ≤ exactLuma p := by
  rw [exactLuma]
  positivity

theorem meanLuma_nonneg : 0 ≤ meanLuma p0 p1 p2 p3 den := by
  have h0 := exactLuma_nonneg p0
  have h1 := exactLuma_nonneg p1
  have h2 := exactLuma_nonneg p2
  have h3 := exactLuma_nonneg p3
  rw [meanLuma]
  positivity

/-- The luma of a normalized pixel is its exact luma over the denominator (R131, R132). -/
theorem toLumaChroma_normalized (p : Pixel) :
    (toLumaChroma (numQ ties) ⟨(p.r : Rat) / den, (p.g : Rat) / den, (p.b : Rat) / den⟩).x0 = exactLuma p / den := by
  rw [toLumaChroma_numQ, exactLuma]
  ring

/-- Under `NUM_Q` the fields of normalized pixels fault exactly when their mean luma does: it is not negative, so its rounded
product can leave the 64-bit range at the top alone. -/
theorem encodeFields_numQ_fault_iff (hden : den ≠ 0) :
    encodeFields (numQ ties) C p0 p1 p2 p3 den = raiseDomainFault ↔
      2 ^ 63 ≤ froundQ ties (meanLuma p0 p1 p2 p3 den * 63) := by
  have hmean : (exactLuma p0 / den + exactLuma p1 / den + exactLuma p2 / den + exactLuma p3 / den) / 4 =
      meanLuma p0 p1 p2 p3 den := by
    rw [meanLuma]
    ring
  have hround : 0 ≤ froundQ ties (meanLuma p0 p1 p2 p3 den * 63) :=
    le_froundQ _ _ (by push_cast; linarith [meanLuma_nonneg (p0 := p0) (p1 := p1) (p2 := p2) (p3 := p3) (den := den)])
  rw [encodeFields_eq hden fun p => rfl, quantizeBlock_numQ_fault_iff]
  simp only [numQ_div, numQ_fint, Int.cast_natCast, toLumaChroma_normalized, hmean, quantizeAverage_numQ_fault_iff]
  omega

/-- Under `NUM_Q` `BLKENC` faults exactly on a zero denominator or on a mean luma too large to quantize (R181, R204). -/
theorem resultOf_blkenc_domainFault_iff (hnum : c.num = .exactRational ties) :
    resultOf c (.blkenc p0 p1 p2 p3 den) = .error (.fatal .domainFault) ↔
      den = 0 ∨ 2 ^ 63 ≤ froundQ ties (meanLuma p0 p1 p2 p3 den * 63) := by
  rw [resultOf, map_eq_domainFault_iff, numOf_exact ties hnum]
  by_cases hden : den = 0
  · subst hden
    exact iff_of_true (encodeBlock_zero p0 p1 p2 p3) (.inl rfl)
  · rw [encodeBlock_fault_iff, encodeFields_numQ_fault_iff hden, or_iff_right hden]

/-- The luma weights sum to 1, so luma keeps a bound of the components (R132). -/
theorem exactLuma_le {p : Pixel} {m : Nat} (h : p.r ≤ m ∧ p.g ≤ m ∧ p.b ≤ m) : exactLuma p ≤ m := by
  obtain ⟨hr, hg, hb⟩ := h
  have hr' : (p.r : Rat) ≤ m := by exact_mod_cast hr
  have hg' : (p.g : Rat) ≤ m := by exact_mod_cast hg
  have hb' : (p.b : Rat) ≤ m := by exact_mod_cast hb
  rw [exactLuma]
  linarith

/-- A mean luma keeps a bound of the lumas: the denominator is at least 1. -/
theorem meanLuma_le {m : Rat} (hden : den ≠ 0) (h : ∀ p ∈ [p0, p1, p2, p3], exactLuma p ≤ m) :
    meanLuma p0 p1 p2 p3 den ≤ m := by
  simp only [List.forall_mem_cons, List.not_mem_nil, false_implies, implies_true, and_true] at h
  obtain ⟨h0, h1, h2, h3⟩ := h
  have hone : (1 : Rat) ≤ den := by exact_mod_cast Nat.one_le_iff_ne_zero.2 hden
  have hm : 0 ≤ m := (exactLuma_nonneg p0).trans h0
  rw [meanLuma, div_le_iff₀ (by linarith)]
  nlinarith

/-- Components of up to 57 bits have a mean luma whose product by 63 fits in 64 bits, since 63 is less than 2^6 (R161, R204). -/
theorem froundQ_meanLuma_lt {pw : Widths} (hcw : pw.cw ≤ 57) (hden : den ≠ 0)
    (hfits : ∀ p ∈ [p0, p1, p2, p3], p.fits pw = true) :
    froundQ ties (meanLuma p0 p1 p2 p3 den * 63) < 2 ^ 63 := by
  have hpow : 2 ^ pw.cw ≤ 2 ^ 57 := Nat.pow_le_pow_right (by norm_num) hcw
  have hluma : ∀ p ∈ [p0, p1, p2, p3], exactLuma p ≤ ((2 ^ 57 - 1 : Nat) : Rat) := fun p hp => by
    obtain ⟨hr, hg, hb⟩ := fits_iff.1 (hfits p hp)
    exact exactLuma_le ⟨by omega, by omega, by omega⟩
  have hmean := meanLuma_le hden hluma
  have hround : froundQ ties (meanLuma p0 p1 p2 p3 den * 63) ≤ 63 * (2 ^ 57 - 1) :=
    froundQ_le _ _ (by push_cast at hmean ⊢; linarith)
  omega

/-! ### All commands -/

/-- R200's row for DomainFault. -/
theorem op_of_domainFault (h : resultOf c i = .error (.fatal .domainFault)) :
    i.op ∈ [0x08#5, 0x0C#5, 0x14#5, 0x16#5, 0x1C#5, 0x1D#5] := by
  obtain ⟨ports, e, -⟩ | ⟨e, -⟩ | ⟨e, -⟩ | ⟨e, -⟩ | ⟨e, hop⟩ := resultOf_cases c i <;> rw [e] at h <;> cases h
  exact hop

/-- Settles O18: the commands outside R200's row never raise it, `QDET` and `BLKDEC` always answer under `NUM_Q`, and the other
four are decided one by one. -/
theorem domainFaultExactlyUnderNumQ : Obligations.DomainFaultExactlyUnderNumQ := by
  intro s i ties hrun hnum hw hwf
  refine ⟨?_, ?_⟩
  · rw [exec_eq_faulted_iff hrun]
    cases i with
    | blkenc p0 p1 p2 p3 den => exact resultOf_blkenc_domainFault_iff hnum
    | norm p den =>
      rw [resultOf, map_eq_domainFault_iff]
      exact normalizePixel_fault_iff
    | denorm n0 n1 n2 den =>
      rw [resultOf, map_eq_domainFault_iff, numOf_exact ties hnum]
      exact denormalize_numQ_fault_iff
    | qavg a =>
      rw [resultOf, map_eq_domainFault_iff, numOf_exact ties hnum]
      exact quantizeAverage_numQ_fault_iff
    | qdet x =>
      rw [resultOf, map_eq_domainFault_iff, numOf_exact ties hnum, quantizeDetail_numQ]
      exact iff_of_false (by simp [raiseDomainFault]) id
    | blkdec packed =>
      obtain ⟨p0, p1, p2, p3, e, -⟩ := blkdecDecodesEveryWord s ties packed hrun hnum hw
      rw [resultOf_of_exec_completed hrun e]
      exact iff_of_false (by simp) id
    | _ => exact iff_of_false (fun h => by simpa [Instr.op] using op_of_domainFault h) id
  · rintro hcw p0 p1 p2 p3 den rfl
    rw [exec_eq_faulted_iff hrun, resultOf_blkenc_domainFault_iff hnum]
    refine or_iff_left_of_imp fun hbig => by_contra fun hden => ?_
    have hfits : ∀ p ∈ [p0, p1, p2, p3], p.fits s.cfg.widths = true := by
      simp only [Instr.wellFormed, Bool.and_eq_true] at hwf
      simp [hwf]
    exact absurd (froundQ_meanLuma_lt hcw hden hfits) (not_lt.2 hbig)

end Sys2Proof.Machine
end

section
/-! Short bodies (R56, R223): the reader answers words exactly when the body holds all their bytes. -/

namespace Sys2Proof.Machine

variable {n : Nat} {bs : List Byte}

/-- A body that ends before the last word ends the reading (R223). -/
theorem readWords_short (h : bs.length < 4 * n) : readWords n bs = .error .truncatedStream := by
  induction n generalizing bs with
  | zero => omega
  | succ n ih =>
    match bs with
    | b0 :: b1 :: b2 :: b3 :: bs =>
      have hrest : bs.length < 4 * n := by simp only [List.length_cons] at h; omega
      rw [readWords, ih hrest]
    | [] | [_] | [_, _] | [_, _, _] => rfl

/-- A body with four bytes for every word has all the words (R56). -/
theorem readWords_enough (h : 4 * n ≤ bs.length) : ∃ ps rest, readWords n bs = .ok (ps, rest) := by
  induction n generalizing bs with
  | zero => exact ⟨[], bs, rfl⟩
  | succ n ih =>
    match bs with
    | b0 :: b1 :: b2 :: b3 :: bs =>
      have hrest : 4 * n ≤ bs.length := by simp only [List.length_cons] at h; omega
      obtain ⟨ps, rest, e⟩ := ih hrest
      exact ⟨bytesWord b0 b1 b2 b3 :: ps, rest, by rw [readWords, e]⟩
    | [] | [_] | [_, _] | [_, _, _] => simp only [List.length_cons, List.length_nil] at h; omega

/-- Settles O58: once the header is read, the reader alone answers TruncatedStream. -/
theorem shortBodiesAreTruncated : Obligations.ShortBodiesAreTruncated := fun sp cfg bs body w h hhead => by
  refine ⟨fun hshort => ?_, fun hlong => ?_⟩
  · simp only [decodeStream, hhead, readWords_short hshort]
  · obtain ⟨ps, rest, hread⟩ := readWords_enough hlong
    simp only [decodeStream, hhead, hread]
    split
    · simp
    · split <;> simp

end Sys2Proof.Machine
end

section
/-! A reset event taken between commands (R230, R231). -/

namespace Sys2Proof.Machine

/-- Settles O2: the step of a reset event is `resetBlock`, which sets each field the statement names and never looks at the
abandoned commands. -/
theorem resetEventClearsTheLatches : Obligations.ResetEventClearsTheLatches := fun _ _ _ h => by
  rw [step_reset h, resetBlock]

end Sys2Proof.Machine
end
